-- ==== Sys2Proof/Word.lean ====
section
/-! DEFINITION. The widths of NBQ: bytes of the buffers, 16-bit wire fields, 32-bit registers and
command words (spec 00_scope.md R11, 10_state.md R21). Every value is unsigned. -/

namespace Sys2Proof

/-- One byte of a buffer (R11). -/
abbrev Byte := BitVec 8

/-- A 16-bit wire field (R105). -/
abbrev Half := BitVec 16

/-- A register or a command word (R21, R70). -/
abbrev Word := BitVec 32

end Sys2Proof
end

