-- ==== Sys2Proof/Config.lean ====
section
/-! DEFINITION. What an implementation of NBQ fixes (spec 00_scope.md R8 to R10) and the free values
of this model: opaque constants without a body, so that no proof can see what they are. -/

namespace Sys2Proof.Config

/-- Bytes of the NBT header (R8). -/
def hdrLen : Nat := 12
/-- Bytes of the half-ASCII encoded name (R8). -/
def qnameLen : Nat := 32
/-- Bytes of a request datagram (R8, 90_conflicts.md C1). -/
def reqLen : Nat := 50
/-- The size ceiling on a response and the capacity of RX (R8). -/
def rxCap : Nat := 576
/-- Bytes of the resource-record name the parser skips: the named parameter of R10, value 32
(90_conflicts.md C2; log 18). -/
def rrNameLen : Nat := 32
/-- Type, class, TTL and RDLENGTH of the resource record (R8). -/
def rrFixedLen : Nat := 10
/-- Bytes of one name-table entry on the wire (R8). -/
def entryLen : Nat := 18
/-- Bytes of the statistics block (R8). -/
def statsLen : Nat := 46
/-- Records the ENTRY buffer holds: a named parameter, value 26 (R8, R119; log 18). -/
def entryCap : Nat := 26
/-- Bytes of one ENTRY record (R58). -/
def entryRecLen : Nat := 20
/-- Query type and required response type, node status (R8). -/
def typeNbstat : Half := 0x0021#16
/-- Query class, Internet (R8). -/
def classIn : Half := 0x0001#16

/-- `ENTRIES_OFF`, the wire offset of the first entry (R9); 55 for the constants above. -/
def entriesOff : Nat := hdrLen + rrNameLen + rrFixedLen + 1
/-- `RESP_LEN(N)`, the only response length the parser accepts for N entries (R9). -/
def respLen (n : Nat) : Nat := entriesOff + entryLen * n + statsLen

/-- Where the platform puts the 128-byte register space: the open parameter `NBQ_BASE` (R51; log 14). -/
opaque nbqBase : Nat

/-- FREE VALUE (log 3): what a byte of RX, TX, LABEL or ENC holds that nothing has written since the
reset numbered by the first argument; the others are the buffer's id and the byte's index
(R47, R69, R151). -/
opaque unknownByte : Nat → Nat → Nat → Byte

/-- FREE VALUE (log 4): what the n-th host read of a register other than STATUS while BUSY returns
(R49, R157). -/
opaque busyRead : Nat → Word

end Sys2Proof.Config
end

