-- ==== Sys2Proof/Syntax.lean ====
section
/-! DEFINITION. The nine commands of spec/opcode_table.json (spec 30_encoding.md R70 to R75, R79) and
the buffers they name (20_memory.md R52). -/

namespace Sys2Proof

/-- The six byte buffers, in the order of their ids 0 to 5 (R52). -/
inductive Buffer where
  | rx | tx | label | enc | stats | entry
  deriving DecidableEq, Repr

/-- What the 3-bit BUF field names: a buffer, or one of the two reserved ids (R72). -/
inductive BufSel where
  | buffer (b : Buffer)
  | reserved6
  | reserved7
  deriving DecidableEq, Repr

/-- A command: one constructor per row of the opcode table. `off` is the byte index OFFSET,
a number (R73); `WellFormed` says which numbers the field can hold. -/
inductive Instr where
  | rd8 (sel : BufSel) (off : Nat)
  | rd16 (sel : BufSel) (off : Nat)
  | rd32 (sel : BufSel) (off : Nat)
  | wr8 (sel : BufSel) (off : Nat)
  | wr16 (sel : BufSel) (off : Nat)
  | wr32 (sel : BufSel) (off : Nat)
  | encname
  | buildreq
  | parseresp
  deriving DecidableEq, Repr

/-- The mnemonics of the opcode table, as names. -/
inductive Mnemonic where
  | RD8 | RD16 | RD32 | WR8 | WR16 | WR32 | ENCNAME | BUILDREQ | PARSERESP
  deriving DecidableEq, Repr

/-- The row of the opcode table a command belongs to (R81). -/
def Instr.mnemonic : Instr → Mnemonic
  | .rd8 _ _ => .RD8
  | .rd16 _ _ => .RD16
  | .rd32 _ _ => .RD32
  | .wr8 _ _ => .WR8
  | .wr16 _ _ => .WR16
  | .wr32 _ _ => .WR32
  | .encname => .ENCNAME
  | .buildreq => .BUILDREQ
  | .parseresp => .PARSERESP

end Sys2Proof
end

