-- ==== Sys2Proof/WellFormed.lean ====
section
/-! DEFINITION. Which terms of `Instr` have a command word: the byte index must fit the 10-bit OFFSET
field (spec 30_encoding.md R73, R79: 0 to 1023). An index past a buffer's end is well-formed: the
command then completes with invalid-argument (R64, R85). -/

namespace Sys2Proof

/-- The largest byte index OFFSET can hold, plus one (R73). -/
def offsetLimit : Nat := 1024

/-- The check: a codec command's index fits OFFSET; the other three take no operand (R75). -/
def Instr.wf : Instr → Bool
  | .rd8 _ off => decide (off < offsetLimit)
  | .rd16 _ off => decide (off < offsetLimit)
  | .rd32 _ off => decide (off < offsetLimit)
  | .wr8 _ off => decide (off < offsetLimit)
  | .wr16 _ off => decide (off < offsetLimit)
  | .wr32 _ off => decide (off < offsetLimit)
  | .encname => true
  | .buildreq => true
  | .parseresp => true

/-- A command that has a command word. -/
abbrev WellFormed (i : Instr) : Prop := i.wf = true

end Sys2Proof
end

