-- ==== Sys2Proof/Decode.lean ====
section
/-! DEFINITION. Command words to commands (spec 30_encoding.md R70, R77) and back (R70, R79), and the
opcode table's match and mask pairs (R81). Decoding is total; every rejected word is rejected for a
named reason, and the engine completes it with invalid-argument (R76). -/

namespace Sys2Proof

/-- Why a word is no command (R76, R77). Raised by `decode`; the engine answers each with ERR = 2. -/
inductive DecodeError where
  /-- Bit 7 or one of bits 31:18 is set. -/
  | reservedBits
  /-- OP is 0x0, 0x4 or 0xB to 0xF. -/
  | reservedOp
  /-- ENCNAME, BUILDREQ or PARSERESP with a nonzero BUF or OFFSET. -/
  | operandOnFixedCommand
  deriving DecidableEq, Repr

/-- The id of a buffer (R52). -/
def Buffer.code : Buffer → BitVec 3
  | .rx => 0
  | .tx => 1
  | .label => 2
  | .enc => 3
  | .stats => 4
  | .entry => 5

/-- The BUF field's value for a selection (R72). -/
def BufSel.code : BufSel → BitVec 3
  | .buffer b => b.code
  | .reserved6 => 6
  | .reserved7 => 7

/-- What a value of the BUF field names (R72). -/
def BufSel.ofCode (c : BitVec 3) : BufSel :=
  match c.toNat with
  | 0 => .buffer .rx
  | 1 => .buffer .tx
  | 2 => .buffer .label
  | 3 => .buffer .enc
  | 4 => .buffer .stats
  | 5 => .buffer .entry
  | 6 => .reserved6
  | _ => .reserved7

/-- OP, bits 3:0 of a command word (R70). -/
def fieldOp (w : Word) : BitVec 4 := w.extractLsb' 0 4
/-- BUF, bits 6:4 (R70). -/
def fieldBuf (w : Word) : BitVec 3 := w.extractLsb' 4 3
/-- Bit 7, reserved (R70). -/
def fieldRsv7 (w : Word) : BitVec 1 := w.extractLsb' 7 1
/-- OFFSET, bits 17:8 (R70). -/
def fieldOffset (w : Word) : BitVec 10 := w.extractLsb' 8 10
/-- Bits 31:18, reserved (R70). -/
def fieldRsv18 (w : Word) : BitVec 14 := w.extractLsb' 18 14

/-- A command without operands: BUF and OFFSET must be 0 (R75). -/
def decodeFixed (i : Instr) (w : Word) : Except DecodeError Instr :=
  if fieldBuf w ≠ 0 ∨ fieldOffset w ≠ 0 then .error .operandOnFixedCommand else .ok i

/-- The decoding of R77. -/
def decode (w : Word) : Except DecodeError Instr :=
  if fieldRsv18 w ≠ 0 ∨ fieldRsv7 w ≠ 0 then .error .reservedBits
  else
    match (fieldOp w).toNat with
    | 0x1 => .ok (.rd8 (BufSel.ofCode (fieldBuf w)) (fieldOffset w).toNat)
    | 0x2 => .ok (.rd16 (BufSel.ofCode (fieldBuf w)) (fieldOffset w).toNat)
    | 0x3 => .ok (.rd32 (BufSel.ofCode (fieldBuf w)) (fieldOffset w).toNat)
    | 0x5 => .ok (.wr8 (BufSel.ofCode (fieldBuf w)) (fieldOffset w).toNat)
    | 0x6 => .ok (.wr16 (BufSel.ofCode (fieldBuf w)) (fieldOffset w).toNat)
    | 0x7 => .ok (.wr32 (BufSel.ofCode (fieldBuf w)) (fieldOffset w).toNat)
    | 0x8 => decodeFixed .encname w
    | 0x9 => decodeFixed .buildreq w
    | 0xA => decodeFixed .parseresp w
    | _ => .error .reservedOp

/-- OP of each command (R71). -/
def Instr.op : Instr → BitVec 4
  | .rd8 _ _ => 0x1
  | .rd16 _ _ => 0x2
  | .rd32 _ _ => 0x3
  | .wr8 _ _ => 0x5
  | .wr16 _ _ => 0x6
  | .wr32 _ _ => 0x7
  | .encname => 0x8
  | .buildreq => 0x9
  | .parseresp => 0xA

/-- `w = OP | (BUF << 4) | (OFFSET << 8)` (R70). -/
def assemble (op : BitVec 4) (buf : BitVec 3) (off : Nat) : Word :=
  op.setWidth 32 ||| (buf.setWidth 32 <<< 4) ||| (BitVec.ofNat 32 off <<< 8)

/-- The command word of a well-formed command (R70, R75, R79). -/
def encode : Instr → Word
  | .rd8 sel off => assemble 0x1 sel.code off
  | .rd16 sel off => assemble 0x2 sel.code off
  | .rd32 sel off => assemble 0x3 sel.code off
  | .wr8 sel off => assemble 0x5 sel.code off
  | .wr16 sel off => assemble 0x6 sel.code off
  | .wr32 sel off => assemble 0x7 sel.code off
  | .encname => assemble 0x8 0 0
  | .buildreq => assemble 0x9 0 0
  | .parseresp => assemble 0xA 0 0

/-- A row of the opcode table (R81). -/
structure OpcodeRow where
  mnemonic : Mnemonic
  matchWord : Word
  mask : Word
  deriving DecidableEq, Repr

/-- The match and mask pairs of R81. -/
def opcodeTable : List OpcodeRow :=
  [ ⟨.RD8, 0x00000001, 0xFFFC008F⟩,
    ⟨.RD16, 0x00000002, 0xFFFC008F⟩,
    ⟨.RD32, 0x00000003, 0xFFFC008F⟩,
    ⟨.WR8, 0x00000005, 0xFFFC008F⟩,
    ⟨.WR16, 0x00000006, 0xFFFC008F⟩,
    ⟨.WR32, 0x00000007, 0xFFFC008F⟩,
    ⟨.ENCNAME, 0x00000008, 0xFFFFFFFF⟩,
    ⟨.BUILDREQ, 0x00000009, 0xFFFFFFFF⟩,
    ⟨.PARSERESP, 0x0000000A, 0xFFFFFFFF⟩ ]

/-- `w` is this row's command (R81). -/
def OpcodeRow.selects (r : OpcodeRow) (w : Word) : Prop := w &&& r.mask = r.matchWord

/-- The command of a table row's bits `w` (`nbits` of them; bits above are 0). A command is one
32-bit word (R78), so a number that needs more bits is no command. -/
def decodeTableWord (nbits w : Nat) : Option Instr :=
  let v := w % 2 ^ nbits
  if v < 2 ^ 32 then
    match decode (BitVec.ofNat 32 v) with
    | .ok i => some i
    | .error _ => none
  else none

end Sys2Proof
end

