-- ==== Sys2Proof/Machine/State.lean ====
section
/-! DEFINITION. The state of NBQ as plain data (spec 10_state.md R20 to R47, 20_memory.md R52): the
registers, the six buffers, the engine, the reset line, and the turns still to come; the reasons a
step can stop; and the state right after reset (70_reset_and_hazards.md R149). -/

namespace Sys2Proof.Machine

/-- The bytes of one buffer that are listed: index and byte, indices rising. What an index that is
not listed reads as is `Buffer.unlisted` (Ops.lean; log 11). -/
abbrev Memory := List Host.Cell

/-- The six buffers (R52). -/
structure Buffers where
  rx : Memory
  tx : Memory
  label : Memory
  enc : Memory
  stats : Memory
  entry : Memory
  deriving DecidableEq, Repr

/-- The engine's `state` (R44). `STATUS.BUSY` mirrors it and is computed from it (log 8). -/
inductive EngineState where
  | idle
  | busy
  deriving DecidableEq, Repr

/-- The engine's state (R44): the latched command and operands, and the parser's cursor `c` and entry
index `i`, which mean nothing outside PARSERESP (log 9). Between commands the latched values stay as
the last acceptance left them (log 21). -/
structure Engine where
  state : EngineState
  cw : Word
  d : Word
  len : Half
  id : Half
  c : Nat
  i : Nat
  deriving DecidableEq, Repr

/-- `STATUS` less BUSY, which is the engine's `state` (R25). Its reserved bits hold nothing. -/
structure Status where
  done : Bool
  ovr : Bool
  resv : Bool
  err : BitVec 4
  gate : BitVec 4
  deriving DecidableEq, Repr

/-- The nine result registers, offsets 0x14 to 0x34 (R35 to R42). -/
structure Results where
  idFlags : Word
  qdAn : Word
  nsAr : Word
  hflags : Word
  typeClass : Word
  ttl : Word
  rdlenN : Word
  hwaddrHi : Word
  hwaddrLo : Word
  deriving DecidableEq, Repr

/-- What a host access does (R22). -/
inductive AccessKind where
  | read
  | write (v : Word)
  deriving DecidableEq, Repr

/-- A host access as it reaches the block: read or write, its width in bits, and its offset from
`NBQ_BASE` (R22, R51; log 13, log 14). -/
structure HostAccess where
  kind : AccessKind
  bits : Nat
  offset : Nat
  deriving DecidableEq, Repr

/-- One turn of the schedule (log 1): the host accesses a register, the engine may step, the platform
drives the reset line, or the host stands at a WAIT (30_encoding.md R80) with `polls` busy reads to
come before the engine's turn, after the one it makes now (log 15). -/
inductive Turn where
  | access (a : HostAccess)
  | engine
  | resetLine (asserted : Bool)
  | wait (polls : Nat)
  deriving DecidableEq, Repr

/-- The state of the block and of the turns that still reach it. `rxlen` and `txid` hold the bits
15:0 of their registers; the reserved bits hold nothing (R33, R34; log 17). The last four fields
are the model's own (log 1, log 3, log 4, log 16). -/
structure State where
  status : Status
  data : Word
  rxlen : Half
  txid : Half
  res : Results
  bufs : Buffers
  engine : Engine
  inReset : Bool
  epoch : Nat
  draws : Nat
  reply : Option Word
  schedule : List Turn
  deriving DecidableEq, Repr

/-- Why the step stops: only a host access can fault, never a command (R92, R134). -/
inductive Fault where
  /-- Raised by `hostAccess` for an access that is not an aligned 32-bit access at an offset of at
  most 0x7C (R22). Safe: the spec asks for this fault, and no state changes. -/
  | busError
  /-- Raised by `hostAccess` for any access while reset is asserted (R148). Safe, as above. -/
  | busErrorInReset
  deriving DecidableEq, Repr

/-- Why an instruction has no meaning. Every constructor of `Instr` has one, so nothing raises it. -/
inductive Refusal where
  /-- Raised by an arm of `exec` that is not modelled yet: none is. Safe. -/
  | notModelled (mnemonic : String)
  deriving DecidableEq, Repr

/-- The result registers when no result is held (R47, R111). -/
def Results.cleared : Results :=
  ⟨0, 0, 0, 0, 0, 0, 0, 0, 0⟩

/-- The state on reset release (R47, R149). RX, TX, LABEL and ENC list nothing: their bytes are
unknown (log 3). STATS and ENTRY list nothing: their bytes are 0x00 (log 11). The engine's latched
values are unspecified there; this model names 0 (log 5). The model's own fields: log 6. -/
def State.reset : State where
  status := ⟨false, false, false, 0, 0⟩
  data := 0
  rxlen := 0
  txid := 0
  res := Results.cleared
  bufs := ⟨[], [], [], [], [], []⟩
  engine := ⟨.idle, 0, 0, 0, 0, 0, 0⟩
  inReset := false
  epoch := 0
  draws := 0
  reply := none
  schedule := []

end Sys2Proof.Machine
end

