-- ==== Sys2Proof/Machine/Ops.lean ====
section
/-! DEFINITION. The operations every command and every host access goes through: one byte of a buffer
(spec 20_memory.md R52), the big-endian accesses MemRead and MemWrite (00_scope.md R13), completing
a command and raising an error (10_state.md R44, 60_exceptions.md R138), clearing the result state
(43_response_parser.md R111), accepting a command (10_state.md R24) and resetting the block
(70_reset_and_hazards.md R149). The block has no trap entry and no return (R143): `raise` is its
whole exception mechanism. -/

namespace Sys2Proof.Machine

/-! ### One buffer's bytes -/

/-- The size of a buffer in bytes (R52). -/
def bufferSize : Buffer → Nat
  | .rx => Config.rxCap
  | .tx => Config.reqLen
  | .label => 16
  | .enc => Config.qnameLen + 1
  | .stats => Config.statsLen
  | .entry => Config.entryCap * Config.entryRecLen

/-- What an index that is not listed holds: 0x00 in STATS and ENTRY, no known value in the buffers
that reset does not clear (R47, R151; log 11). -/
def unlistedByte : Buffer → Option Byte
  | .rx | .tx | .label | .enc => none
  | .stats | .entry => some 0x00

/-- The byte listed for an index. -/
def Memory.lookup : Memory → Nat → Option Byte
  | [], _ => none
  | (k, x) :: rest, a => if k = a then some x else Memory.lookup rest a

/-- List a byte, keeping the indices rising. -/
def Memory.insert : Memory → Nat → Byte → Memory
  | [], a, v => [(a, v)]
  | (k, x) :: rest, a, v =>
    if a < k then (a, v) :: (k, x) :: rest
    else if a = k then (a, v) :: rest
    else (k, x) :: Memory.insert rest a v

/-- List no byte for an index. -/
def Memory.erase (m : Memory) (a : Nat) : Memory :=
  m.filter fun cell => cell.1 != a

/-- Write one byte: a byte equal to what an unlisted index reads as is not listed. -/
def Memory.write (unlisted : Option Byte) (m : Memory) (a : Nat) (v : Byte) : Memory :=
  if unlisted = some v then Memory.erase m a else Memory.insert m a v

/-- Write bytes at rising indices. -/
def Memory.writeBytes (unlisted : Option Byte) (m : Memory) (a : Nat) : List Byte → Memory
  | [] => m
  | v :: rest => Memory.writeBytes unlisted (Memory.write unlisted m a v) (a + 1) rest

/-- The indices of a list rise strictly. -/
def Memory.rising : Memory → Bool
  | [] => true
  | (k, _) :: rest => (rest.all fun cell => decide (k < cell.1)) && Memory.rising rest

/-- The canonical form of a buffer's list: indices rise, none is past the buffer's end, and no entry
equals what an unlisted index reads as (log 11). -/
def Memory.wf (b : Buffer) (m : Memory) : Bool :=
  Memory.rising m
    && m.all fun cell => decide (cell.1 < bufferSize b) && decide (unlistedByte b ≠ some cell.2)

/-- The list of a buffer. -/
def Buffers.get (bs : Buffers) : Buffer → Memory
  | .rx => bs.rx
  | .tx => bs.tx
  | .label => bs.label
  | .enc => bs.enc
  | .stats => bs.stats
  | .entry => bs.entry

/-- Replace the list of one buffer. -/
def Buffers.set (bs : Buffers) (b : Buffer) (m : Memory) : Buffers :=
  match b with
  | .rx => { bs with rx := m }
  | .tx => { bs with tx := m }
  | .label => { bs with label := m }
  | .enc => { bs with enc := m }
  | .stats => { bs with stats := m }
  | .entry => { bs with entry := m }

/-- Every buffer's list has its canonical form. -/
def Buffers.wf (bs : Buffers) : Bool :=
  Memory.wf .rx bs.rx && Memory.wf .tx bs.tx && Memory.wf .label bs.label
    && Memory.wf .enc bs.enc && Memory.wf .stats bs.stats && Memory.wf .entry bs.entry

/-- `B[i]` (R12). A byte of RX, TX, LABEL or ENC that nothing has written since the last reset holds a
free value, the same at every read until it is written (R47, R66, R69; log 3). -/
def State.byte (s : State) (b : Buffer) (i : Nat) : Byte :=
  match Memory.lookup (s.bufs.get b) i with
  | some v => v
  | none =>
    match unlistedByte b with
    | some v => v
    | none => Config.unknownByte s.epoch b.code.toNat i

/-- `B[i..i+n-1]` (R12). -/
def State.bytes (s : State) (b : Buffer) (i : Nat) : Nat → List Byte
  | 0 => []
  | n + 1 => s.byte b i :: State.bytes s b (i + 1) n

/-- `B[i..] <- vs`, the one way a command writes a buffer. -/
def State.writeBytes (s : State) (b : Buffer) (i : Nat) (vs : List Byte) : State :=
  { s with bufs := s.bufs.set b (Memory.writeBytes (unlistedByte b) (s.bufs.get b) i vs) }

/-! ### Big-endian accesses (R13, R59) -/

/-- `MemRead(B:i, 2)` (R13): the lowest index is the most significant byte. -/
def State.read16 (s : State) (b : Buffer) (i : Nat) : Half :=
  s.byte b i ++ s.byte b (i + 1)

/-- `MemRead(B:i, 4)` (R13). -/
def State.read32 (s : State) (b : Buffer) (i : Nat) : Word :=
  s.byte b i ++ s.byte b (i + 1) ++ s.byte b (i + 2) ++ s.byte b (i + 3)

/-- The bytes of `MemWrite(B:i, 1, v)` (R13). -/
def bytesOf8 (v : Byte) : List Byte := [v]

/-- The bytes of `MemWrite(B:i, 2, v)`, most significant first (R13). -/
def bytesOf16 (v : Half) : List Byte := [v.extractLsb' 8 8, v.extractLsb' 0 8]

/-- The bytes of `MemWrite(B:i, 4, v)`, most significant first (R13). -/
def bytesOf32 (v : Word) : List Byte :=
  [v.extractLsb' 24 8, v.extractLsb' 16 8, v.extractLsb' 8 8, v.extractLsb' 0 8]

/-! ### Completing a command, with or without an error (R44, R134 to R138) -/

/-- The error kinds of R135. The block raises neither of the transport's two (R137). -/
inductive ErrorKind where
  | none
  | outOfMemory
  | invalidArgument
  | transportSetup
  | protocolViolation
  | timeout
  | internal
  deriving DecidableEq, Repr

/-- The code of an error kind in `STATUS.ERR` (R135). -/
def ErrorKind.code : ErrorKind → BitVec 4
  | .none => 0
  | .outOfMemory => 1
  | .invalidArgument => 2
  | .transportSetup => 3
  | .protocolViolation => 4
  | .timeout => 5
  | .internal => 6

/-- The gates of PARSERESP (R31). -/
inductive Gate where
  | none
  | sizeCeiling
  | typeDiscriminator
  | lengthCheck
  | entryAllocation
  | finalConsistency
  deriving DecidableEq, Repr

/-- The number of a gate in `STATUS.GATE` (R31). -/
def Gate.number : Gate → BitVec 4
  | .none => 0
  | .sizeCeiling => 1
  | .typeDiscriminator => 3
  | .lengthCheck => 5
  | .entryAllocation => 6
  | .finalConsistency => 8

/-- Completion (R44): the engine goes IDLE, so BUSY reads 0; DONE is 1; ERR and GATE record the
outcome. OVR and RESV stay. That the engine's latches stay too, where 93_implementation_defined.md
row 23 leaves them open between commands, is DESIGN CHOICE (log 21). -/
def State.complete (s : State) (e : ErrorKind) (g : Gate) : State :=
  { s with
    engine := { s.engine with state := .idle }
    status := { s.status with done := true, err := e.code, gate := g.number } }

/-- The end of a command without an error (R135). -/
def State.succeed (s : State) : State := s.complete .none .none

/-- `raise` (R13, R138): ERR and GATE take the error's values and the command completes. -/
def State.raise (s : State) (e : ErrorKind) (g : Gate) : State := s.complete e g

/-- `raise InvalidArgument`: a malformed word or a failed codec check. GATE is 0 outside PARSERESP,
and nothing but STATUS changes (R76, R85, R138). -/
def State.raiseInvalidArgument (s : State) : State := s.raise .invalidArgument .none

/-- `clear_result()` (R111): every result register 0, STATS and ENTRY all 0x00, RESV 0. -/
def State.clearResult (s : State) : State :=
  { s with
    res := Results.cleared
    bufs := { s.bufs with stats := [], entry := [] }
    status := { s.status with resv := false } }

/-! ### Acceptance and reset -/

/-- `STATUS.BUSY` (R25), the engine's `state` (R44; log 8). -/
def State.busy (s : State) : Bool := decide (s.engine.state = .busy)

/-- Acceptance of the command word `w` (R24): BUSY is set, DONE, OVR, ERR and GATE are cleared, and the
engine latches `w` and the operands. Nothing else changes. -/
def State.accept (s : State) (w : Word) : State :=
  { s with
    status := { s.status with done := false, ovr := false, err := 0, gate := 0 }
    engine := { s.engine with state := .busy, cw := w, d := s.data, len := s.rxlen, id := s.txid } }

/-- The state of R149, in which the bytes of RX, TX, LABEL and ENC are unknown anew: `epoch` selects
other free values. The turns still to come and the free values already drawn stay (log 10). -/
def State.resetAt (s : State) (asserted : Bool) (epoch : Nat) : State :=
  { State.reset with inReset := asserted, epoch := epoch, draws := s.draws, schedule := s.schedule }

/-- The platform drives the reset line (R148, R149, R152; log 10): asserting it abandons a running
command and leaves the reset state; releasing it leaves the state of R149. -/
def State.driveReset (s : State) (asserted : Bool) : State :=
  if asserted then s.resetAt true (s.epoch + 1)
  else if s.inReset then s.resetAt false s.epoch
  else s

end Sys2Proof.Machine
end

