-- ==== Sys2Proof/Machine/Operands.lean ====
section
/-! DEFINITION. The operands of the codec commands: a buffer and a byte index, checked before use (spec
40_codec.md R85), the width, and the value operand, latched at acceptance (10_state.md R32, R44). -/

namespace Sys2Proof.Machine

/-- The widths of the codec (R65, R71). -/
inductive Width where
  | one
  | two
  | four
  deriving DecidableEq, Repr

/-- The width in bytes (R71). -/
def Width.count : Width → Nat
  | .one => 1
  | .two => 2
  | .four => 4

/-- The two directions of the codec (R71: OP[2]). -/
inductive Direction where
  | read
  | write
  deriving DecidableEq, Repr

/-- STATS and ENTRY are read-only for the codec (R52). -/
def bufferReadOnly : Buffer → Bool
  | .stats | .entry => true
  | .rx | .tx | .label | .enc => false

/-- `codec_check` (R85): the buffer of an access that passes, none for a reserved buffer, a write to a
read-only buffer or an access out of bounds (R64). -/
def codecCheck (dir : Direction) (sel : BufSel) (off n : Nat) : Option Buffer :=
  match sel with
  | .reserved6 => none
  | .reserved7 => none
  | .buffer b =>
    if dir = .write ∧ bufferReadOnly b = true then none
    else if off + n ≤ bufferSize b then some b
    else none

/-- `zext_32(MemRead(b:off, n))` (R86 to R88). -/
def State.readValue (s : State) (b : Buffer) (off : Nat) : Width → Word
  | .one => (s.byte b off).setWidth 32
  | .two => (s.read16 b off).setWidth 32
  | .four => s.read32 b off

/-- The bytes of `MemWrite(b:off, n, v)` for the low n bytes of `v` (R89 to R91). -/
def valueBytes (v : Word) : Width → List Byte
  | .one => bytesOf8 (v.setWidth 8)
  | .two => bytesOf16 (v.setWidth 16)
  | .four => bytesOf32 v

/-- Every codec read (R85 to R88): the check, then DATA takes the value. -/
def codecRead (n : Width) (sel : BufSel) (off : Nat) (s : State) : State :=
  match codecCheck .read sel off n.count with
  | some b => { s with data := s.readValue b off n }.succeed
  | none => s.raiseInvalidArgument

/-- Every codec write (R85, R89 to R91): the check, then the low bytes of the latched DATA (R74). -/
def codecWrite (n : Width) (sel : BufSel) (off : Nat) (s : State) : State :=
  match codecCheck .write sel off n.count with
  | some b => (s.writeBytes b off (valueBytes s.engine.d n)).succeed
  | none => s.raiseInvalidArgument

end Sys2Proof.Machine
end

