-- ==== Sys2Proof/Machine/Codec.lean ====
section
/-! DEFINITION. The meanings of the six byte-order codec commands (spec 40_codec.md R86 to R91). Each is
one case of the codec read or write of Operands.lean; none can stop (R92). -/

namespace Sys2Proof.Machine

/-- RD8 (R86). -/
def execRd8 (sel : BufSel) (off : Nat) (s : State) : Host.Outcome State Fault Refusal :=
  .next (codecRead .one sel off s)

/-- RD16 (R87). -/
def execRd16 (sel : BufSel) (off : Nat) (s : State) : Host.Outcome State Fault Refusal :=
  .next (codecRead .two sel off s)

/-- RD32 (R88). -/
def execRd32 (sel : BufSel) (off : Nat) (s : State) : Host.Outcome State Fault Refusal :=
  .next (codecRead .four sel off s)

/-- WR8 (R89). -/
def execWr8 (sel : BufSel) (off : Nat) (s : State) : Host.Outcome State Fault Refusal :=
  .next (codecWrite .one sel off s)

/-- WR16 (R90). -/
def execWr16 (sel : BufSel) (off : Nat) (s : State) : Host.Outcome State Fault Refusal :=
  .next (codecWrite .two sel off s)

/-- WR32 (R91). -/
def execWr32 (sel : BufSel) (off : Nat) (s : State) : Host.Outcome State Fault Refusal :=
  .next (codecWrite .four sel off s)

end Sys2Proof.Machine
end

