-- ==== Sys2Proof/Machine/NameEncoder.lean ====
section
/-! DEFINITION. The NetBIOS name encoder (spec 41_name_encoder.md R93 to R96): half-ASCII, and the meaning
of ENCNAME. -/

namespace Sys2Proof.Machine

/-- The first byte of `HA(b)`: the high nibble's letter (R93). -/
def haHi (b : Byte) : Byte := 0x41#8 + (b.extractLsb' 4 4).setWidth 8

/-- The second byte of `HA(b)`: the low nibble's letter (R93). -/
def haLo (b : Byte) : Byte := 0x41#8 + (b.extractLsb' 0 4).setWidth 8

/-- The half-ASCII encoding of a label, two letters a byte, in order (R94). -/
def haBytes : List Byte → List Byte
  | [] => []
  | b :: rest => haHi b :: haLo b :: haBytes rest

/-- The number of bytes in a label (R55). -/
def labelLen : Nat := 16

/-- ENCNAME (R94): LABEL's 16 bytes as they are (R96), encoded into ENC[0..31], and the terminator. -/
def execEncname (s : State) : Host.Outcome State Fault Refusal :=
  .next (s.writeBytes .enc 0 (haBytes (s.bytes .label 0 labelLen) ++ [0x00])).succeed

end Sys2Proof.Machine
end

