-- ==== Sys2Proof/Machine/Flags.lean ====
section
/-! DEFINITION. The flag words: STATUS (spec 10_state.md R25), the header flags word and its decoded view
(43_response_parser.md R106, R107), the entry flag word and its decoded view (R108, R109), and the
request's flags word (42_request_builder.md R98). No command tests a flag (R46). -/

namespace Sys2Proof.Machine

/-- The 32-bit STATUS register: GATE 15:12, ERR 11:8, RESV 3, OVR 2, DONE 1, BUSY 0, the rest 0 (R25). -/
def State.statusWord (s : State) : Word :=
  (0#16 ++ s.status.gate ++ s.status.err ++ 0#4
    ++ BitVec.ofBool s.status.resv ++ BitVec.ofBool s.status.ovr
    ++ BitVec.ofBool s.status.done ++ BitVec.ofBool s.busy : BitVec 32)

/-! ### The header flags word (R106) -/

/-- R, the response bit (R106). -/
def hR (f : Half) : BitVec 1 := f.extractLsb' 15 1
/-- OPCODE (R106). -/
def hOP (f : Half) : BitVec 4 := f.extractLsb' 11 4
/-- AA, authoritative (R106). -/
def hAA (f : Half) : BitVec 1 := f.extractLsb' 10 1
/-- TC, truncated (R106). -/
def hTC (f : Half) : BitVec 1 := f.extractLsb' 9 1
/-- RD, recursion desired (R106). -/
def hRD (f : Half) : BitVec 1 := f.extractLsb' 8 1
/-- RA, recursion available (R106). -/
def hRA (f : Half) : BitVec 1 := f.extractLsb' 7 1
/-- NMRSV, the two reserved NM bits (R106). -/
def hNMRSV (f : Half) : BitVec 2 := f.extractLsb' 5 2
/-- B, broadcast (R106). -/
def hB (f : Half) : BitVec 1 := f.extractLsb' 4 1
/-- RCODE, the result code (R106). -/
def hRC (f : Half) : BitVec 4 := f.extractLsb' 0 4

/-- `HFW(f)`, the decoded header view (R107). -/
def hfw (f : Half) : Word :=
  (hR f).setWidth 32 ||| (hOP f).setWidth 32 <<< 1 ||| (hAA f).setWidth 32 <<< 5
    ||| (hTC f).setWidth 32 <<< 6 ||| (hRD f).setWidth 32 <<< 7 ||| (hRA f).setWidth 32 <<< 8
    ||| (hB f).setWidth 32 <<< 9 ||| (hRC f).setWidth 32 <<< 10 ||| (hNMRSV f).setWidth 32 <<< 14

/-- A header flags word from its sub-fields (R98, at the positions of R106). -/
def assembleHeaderFlags (r : BitVec 1) (opcode : BitVec 4) (aa tc rd ra : BitVec 1)
    (nmrsv : BitVec 2) (b : BitVec 1) (rcode : BitVec 4) : Half :=
  r.setWidth 16 <<< 15 ||| opcode.setWidth 16 <<< 11 ||| aa.setWidth 16 <<< 10
    ||| tc.setWidth 16 <<< 9 ||| rd.setWidth 16 <<< 8 ||| ra.setWidth 16 <<< 7
    ||| nmrsv.setWidth 16 <<< 5 ||| b.setWidth 16 <<< 4 ||| rcode.setWidth 16

/-- The request's flags word: a query, every flag 0 (R98). -/
def requestFlags : Half := assembleHeaderFlags 0 0 0 0 0 0 0 0 0

/-! ### The entry flag word (R108) -/

/-- G, group name (R108). -/
def eG (e : Half) : BitVec 1 := e.extractLsb' 15 1
/-- ONT, owner node type (R108). -/
def eONT (e : Half) : BitVec 2 := e.extractLsb' 13 2
/-- DRG, deregistering (R108). -/
def eDRG (e : Half) : BitVec 1 := e.extractLsb' 12 1
/-- CNF, conflict (R108). -/
def eCNF (e : Half) : BitVec 1 := e.extractLsb' 11 1
/-- ACT, active (R108). -/
def eACT (e : Half) : BitVec 1 := e.extractLsb' 10 1
/-- PRM, permanent (R108). -/
def ePRM (e : Half) : BitVec 1 := e.extractLsb' 9 1
/-- RSV9, the nine reserved bits (R108). -/
def eRSV (e : Half) : BitVec 9 := e.extractLsb' 0 9

/-- `EFW(e)`, the decoded entry flag word (R109). -/
def efw (e : Half) : Word :=
  e.setWidth 32 ||| (eG e).setWidth 32 <<< 16 ||| (eONT e).setWidth 32 <<< 17
    ||| (eDRG e).setWidth 32 <<< 19 ||| (eCNF e).setWidth 32 <<< 20 ||| (eACT e).setWidth 32 <<< 21
    ||| (ePRM e).setWidth 32 <<< 22 ||| (eRSV e).setWidth 32 <<< 23

/-- The four values of ONT, in the order of R19: 0 B, 1 P, 2 M, 3 reserved. The block stores them and
gives them no meaning. -/
inductive OwnerNodeType where
  | b
  | p
  | m
  | reserved
  deriving DecidableEq, Repr

/-- The owner node type an ONT value stands for (R19, R108). -/
def OwnerNodeType.ofField (v : BitVec 2) : OwnerNodeType :=
  match v.toNat with
  | 0 => .b
  | 1 => .p
  | 2 => .m
  | _ => .reserved

end Sys2Proof.Machine
end

