-- ==== Sys2Proof/Machine/RequestBuilder.lean ====
section
/-! DEFINITION. The Node Status request builder (spec 42_request_builder.md R97 to R104): the 50 bytes of
a request and the meaning of BUILDREQ. -/

namespace Sys2Proof.Machine

/-- The wildcard label `W`: `'*'` and fifteen zero bytes (R101). -/
def wildcardLabel : List Byte := 0x2A#8 :: List.replicate 15 0x00#8

/-- The length-prefix byte of the name (R100). -/
def lengthPrefix : Byte := 0x20#8

/-- The 12-byte header of a request (R97): transaction id, flags, and the counts 1, 0, 0, 0. -/
def requestHeader (id : Half) : List Byte :=
  bytesOf16 id ++ bytesOf16 requestFlags ++ bytesOf16 0x0001 ++ bytesOf16 0x0000 ++ bytesOf16 0x0000
    ++ bytesOf16 0x0000

/-- The 38-byte question section (R97, 90_conflicts.md C1). -/
def requestQuestion : List Byte :=
  [lengthPrefix] ++ haBytes wildcardLabel ++ [0x00] ++ bytesOf16 Config.typeNbstat
    ++ bytesOf16 Config.classIn

/-- BUILDREQ (R99): the request for the latched transaction id, into TX. LABEL and ENC play no part
(R101). -/
def execBuildreq (s : State) : Host.Outcome State Fault Refusal :=
  .next (s.writeBytes .tx 0 (requestHeader s.engine.id ++ requestQuestion)).succeed

end Sys2Proof.Machine
end

