-- ==== Sys2Proof/Machine/ResponseParser.lean ====
section
/-! DEFINITION. The Node Status response parser and validator (spec 43_response_parser.md R105 to R133):
the steps of R110 in their order, and the meaning of PARSERESP. Everything parsed is staged; only
`commit` writes the result state. -/

namespace Sys2Proof.Machine

/-- One staged name-table entry (R118): 15-byte name, suffix, flag word. -/
structure Entry where
  name : List Byte
  suffix : Byte
  flags : Half
  deriving DecidableEq, Repr

/-- Everything a successful parse stages (R110). -/
structure Parsed where
  tid : Half
  fl : Half
  qd : Half
  an : Half
  ns : Half
  ar : Half
  ty : Half
  cl : Half
  ttl : Word
  rdl : Half
  n : Byte
  entries : List Entry
  st : List Byte
  deriving DecidableEq, Repr

/-- How a parse ends, with the cursor and the entry index it leaves (R44, R110; log 9). -/
inductive ParseEnd where
  | raised (e : ErrorKind) (g : Gate) (c i : Nat)
  | parsed (p : Parsed) (c i : Nat)
  deriving DecidableEq, Repr

/-- How the entry loop ends (R118, R119): the staged entries, or ENTRY full. -/
inductive EntriesEnd where
  | full (c i : Nat)
  | taken (es : List Entry) (c i : Nat)
  deriving DecidableEq, Repr

/-- The entry at cursor `c`: its 15-byte name, suffix and flag word (R118). -/
def entryAt (s : State) (c : Nat) : Entry :=
  ⟨s.bytes .rx c 15, s.byte .rx (c + 15), s.read16 .rx (c + 16)⟩

/-- The entry loop of R118: `k` entries still to take, index `i`, cursor `c`. An index that reaches
ENTRY_CAP ends it with nothing staged (R119). -/
def takeEntries (s : State) : (k i c : Nat) → EntriesEnd
  | 0, i, c => .taken [] c i
  | k + 1, i, c =>
    if Config.entryCap ≤ i then .full c i
    else
      match takeEntries s k (i + 1) (c + Config.entryLen) with
      | .full c' i' => .full c' i'
      | .taken es c' i' => .taken (entryAt s c :: es) c' i'

/-- Steps 6 to 8 (R118 to R121), from the first entry on: `p` holds what steps 2 to 4 staged. -/
def parseBody (s : State) (L : Nat) (p : Parsed) (c : Nat) : ParseEnd :=
  match takeEntries s p.n.toNat 0 c with
  | .full c' i => .raised .outOfMemory .entryAllocation c' i
  | .taken es c' i =>
    let st := s.bytes .rx c' Config.statsLen
    let c'' := c' + Config.statsLen
    if c'' ≠ L then .raised .internal .finalConsistency c'' i
    else .parsed { p with entries := es, st := st } c'' i

/-- Steps 2 to 4 (R113, R114, R116) as staged values: the header at 0, the resource record at cursor
`c`, past the name, which is not read. -/
def parseHead (s : State) (c : Nat) : Parsed where
  tid := s.read16 .rx 0
  fl := s.read16 .rx 2
  qd := s.read16 .rx 4
  an := s.read16 .rx 6
  ns := s.read16 .rx 8
  ar := s.read16 .rx 10
  ty := s.read16 .rx c
  cl := s.read16 .rx (c + 2)
  ttl := s.read32 .rx (c + 4)
  rdl := s.read16 .rx (c + 8)
  n := s.byte .rx (c + Config.rrFixedLen)
  entries := []
  st := []

/-- The parse of `RX[0..L-1]` (R110): the gates in the order 1, 3, 5, 6, 8 (R139). The sum of gate 5 is
exact (R117). -/
def parseResponse (s : State) (L : Nat) : ParseEnd :=
  if Config.rxCap < L then .raised .protocolViolation .sizeCeiling 0 0
  else
    let c := Config.hdrLen + Config.rrNameLen
    let p := parseHead s c
    if p.ty ≠ Config.typeNbstat then
      .raised .protocolViolation .typeDiscriminator (c + Config.rrFixedLen) 0
    else
      let c := c + Config.rrFixedLen + 1
      if c + Config.entryLen * p.n.toNat + Config.statsLen ≠ L then
        .raised .protocolViolation .lengthCheck c 0
      else parseBody s L p c

/-- The 20 bytes of an ENTRY record (R58, R122): name, suffix, EFW. -/
def Entry.record (e : Entry) : List Byte :=
  e.name ++ [e.suffix] ++ bytesOf32 (efw e.flags)

/-- The records of entries `k`, `k+1`, ... at index 20k on (R58, R122). -/
def writeRecords (s : State) (k : Nat) : List Entry → State
  | [] => s
  | e :: es => writeRecords (s.writeBytes .entry (Config.entryRecLen * k) e.record) (k + 1) es

/-- Byte `k` of the staged statistics block (R120, R122). -/
def Parsed.stByte (p : Parsed) (k : Nat) : Byte := p.st.getD k 0

/-- The result registers of a parse (R122). -/
def Parsed.results (p : Parsed) : Results where
  idFlags := p.tid ++ p.fl
  qdAn := p.qd ++ p.an
  nsAr := p.ns ++ p.ar
  hflags := hfw p.fl
  typeClass := p.ty ++ p.cl
  ttl := p.ttl
  rdlenN := 0x00#8 ++ p.n ++ p.rdl
  hwaddrHi := p.stByte 0 ++ p.stByte 1 ++ p.stByte 2 ++ p.stByte 3
  hwaddrLo := 0x0000#16 ++ p.stByte 4 ++ p.stByte 5

/-- `commit()` (R122), on a state whose result state is cleared: the result registers, STATS, the
ENTRY records, and RESV. -/
def State.commit (s : State) (p : Parsed) : State :=
  let s := { s with res := p.results, status := { s.status with resv := true } }
  writeRecords (s.writeBytes .stats 0 p.st) 0 p.entries

/-- The engine's cursor and index when PARSERESP ends (log 9). -/
def State.setCursor (s : State) (c i : Nat) : State :=
  { s with engine := { s.engine with c := c, i := i } }

/-- The end of PARSERESP on a cleared state: an error leaves it cleared (R123), success commits (R122). -/
def finishParse (s : State) : ParseEnd → State
  | .raised e g c i => (s.setCursor c i).raise e g
  | .parsed p c i => ((s.setCursor c i).commit p).succeed

/-- PARSERESP (R110): clear the result state, parse with the latched L, end. -/
def execParseresp (s : State) : Host.Outcome State Fault Refusal :=
  .next (finishParse s.clearResult (parseResponse s.clearResult s.engine.len.toNat))

end Sys2Proof.Machine
end

