-- ==== Sys2Proof/Machine/Dispatch.lean ====
section
/-! DEFINITION. The meaning of each command: one arm per constructor of `Instr`. A meaning is the engine's
one step on a decoded command, completion included (spec 10_state.md R44). -/

namespace Sys2Proof.Machine

def exec (i : Instr) (s : State) : Host.Outcome State Fault Refusal :=
  match i with
  | .rd8 sel off => Sys2Proof.Machine.execRd8 sel off s
  | .rd16 sel off => Sys2Proof.Machine.execRd16 sel off s
  | .rd32 sel off => Sys2Proof.Machine.execRd32 sel off s
  | .wr8 sel off => Sys2Proof.Machine.execWr8 sel off s
  | .wr16 sel off => Sys2Proof.Machine.execWr16 sel off s
  | .wr32 sel off => Sys2Proof.Machine.execWr32 sel off s
  | .encname => Sys2Proof.Machine.execEncname s
  | .buildreq => Sys2Proof.Machine.execBuildreq s
  | .parseresp => Sys2Proof.Machine.execParseresp s

end Sys2Proof.Machine
end

