-- ==== Sys2Proof/Machine/Engine.lean ====
section
/-! DEFINITION. The engine's turn (spec 10_state.md R44): a busy engine decodes its latched word (30_encoding.md
R77) and performs the command in one atomic step; a malformed word completes with invalid-argument
(R76). -/

namespace Sys2Proof.Machine

/-- The one step of a busy engine (R44, R76, R77). -/
def runLatched (s : State) : Host.Outcome State Fault Refusal :=
  match decode s.engine.cw with
  | .ok i => exec i s
  | .error _ => .next s.raiseInvalidArgument

/-- The engine's turn: an idle engine has no step (R44). -/
def engineTurn (s : State) : Host.Outcome State Fault Refusal :=
  if s.busy = true then runLatched s else .next s

/-- Present the word `w` to the engine as an accepted command whose step is the very next turn: the
block out of reset, the word and the operands latched (R24), the engine's turn first (log 2). -/
def State.presentCommand (s : State) (w : Word) : State :=
  { s.accept w with inReset := false, schedule := .engine :: s.schedule }

end Sys2Proof.Machine
end

