-- ==== Sys2Proof/Machine/HostPort.lean ====
section
/-! DEFINITION. The host's register accesses (spec 10_state.md R21 to R49): the register map, which
accesses are legal, reads, writes, the bus error, and the reads of a WAIT (30_encoding.md R80). -/

namespace Sys2Proof.Machine

/-- The defined registers (R21). -/
inductive Reg where
  | cmd
  | status
  | data
  | rxlen
  | txid
  | resIdFlags
  | resQdAn
  | resNsAr
  | resHflags
  | resTypeClass
  | resTtl
  | resRdlenN
  | resHwaddrHi
  | resHwaddrLo
  deriving DecidableEq, Repr

/-- The byte offset of a register (R21). -/
def Reg.offset : Reg → Nat
  | .cmd => 0x00
  | .status => 0x04
  | .data => 0x08
  | .rxlen => 0x0C
  | .txid => 0x10
  | .resIdFlags => 0x14
  | .resQdAn => 0x18
  | .resNsAr => 0x1C
  | .resHflags => 0x20
  | .resTypeClass => 0x24
  | .resTtl => 0x28
  | .resRdlenN => 0x2C
  | .resHwaddrHi => 0x30
  | .resHwaddrLo => 0x34

/-- The register at an offset; none at a reserved one (R21, R23). -/
def Reg.ofOffset (off : Nat) : Option Reg :=
  match off with
  | 0x00 => some .cmd
  | 0x04 => some .status
  | 0x08 => some .data
  | 0x0C => some .rxlen
  | 0x10 => some .txid
  | 0x14 => some .resIdFlags
  | 0x18 => some .resQdAn
  | 0x1C => some .resNsAr
  | 0x20 => some .resHflags
  | 0x24 => some .resTypeClass
  | 0x28 => some .resTtl
  | 0x2C => some .resRdlenN
  | 0x30 => some .resHwaddrHi
  | 0x34 => some .resHwaddrLo
  | _ => none

/-- The largest legal offset (R22). -/
def lastOffset : Nat := 0x7C

/-- A legal access: 32 bits, at a multiple of 4, at most 0x7C (R22). -/
def HostAccess.legal (a : HostAccess) : Bool :=
  decide (a.bits = 32) && decide (a.offset % 4 = 0) && decide (a.offset ≤ lastOffset)

/-- The address in the host's map that reaches the block as this access (R51; log 14). -/
def HostAccess.address (a : HostAccess) : Nat := Config.nbqBase + a.offset

/-- What a register holds for a read: CMD reads 0 (R24), RXLEN and TXID zero-extend (R33, R34). -/
def State.regValue (s : State) : Reg → Word
  | .cmd => 0
  | .status => s.statusWord
  | .data => s.data
  | .rxlen => s.rxlen.setWidth 32
  | .txid => s.txid.setWidth 32
  | .resIdFlags => s.res.idFlags
  | .resQdAn => s.res.qdAn
  | .resNsAr => s.res.nsAr
  | .resHflags => s.res.hflags
  | .resTypeClass => s.res.typeClass
  | .resTtl => s.res.ttl
  | .resRdlenN => s.res.rdlenN
  | .resHwaddrHi => s.res.hwaddrHi
  | .resHwaddrLo => s.res.hwaddrLo

/-- The value at an offset; a reserved one reads 0 (R23). -/
def State.offsetValue (s : State) (off : Nat) : Word :=
  match Reg.ofOffset off with
  | some r => s.regValue r
  | none => 0

/-- A host read (R25, R49, R157): STATUS is always exact; any other read while BUSY takes the next free
value (log 4). The block changes nothing else (R66). -/
def hostRead (off : Nat) (s : State) : State :=
  if s.busy = true ∧ Reg.ofOffset off ≠ some .status then
    { s with reply := some (Config.busyRead s.draws), draws := s.draws + 1 }
  else { s with reply := some (s.offsetValue off) }

/-- A write that is lost because the block is BUSY (R28, R49). -/
def State.dropWrite (s : State) : State :=
  { s with status := { s.status with ovr := true } }

/-- A write to a register the host can write (R24, R32 to R34): CMD accepts a command; reserved bits of
RXLEN and TXID are ignored (R23). -/
def State.regWrite (s : State) (v : Word) : Reg → State
  | .cmd => s.accept v
  | .data => { s with data := v }
  | .rxlen => { s with rxlen := v.setWidth 16 }
  | .txid => { s with txid := v.setWidth 16 }
  | _ => s

/-- The registers a host write can change (R21). -/
def Reg.writable : Reg → Bool
  | .cmd | .data | .rxlen | .txid => true
  | _ => false

/-- A host write: dropped while BUSY (R49); ignored at a read-only register (R48) and at a reserved
offset (R23), BUSY or not (log 12). -/
def hostWrite (off : Nat) (v : Word) (s : State) : State :=
  let s := { s with reply := none }
  match Reg.ofOffset off with
  | none => s
  | some r =>
    if r.writable = true then
      if s.busy = true then s.dropWrite else s.regWrite v r
    else s

/-- A host access (R22, R148): a bus error for any access while reset is asserted and for an access that
is not legal (log 7, log 13). -/
def hostAccess (a : HostAccess) (s : State) : Host.Outcome State Fault Refusal :=
  if s.inReset = true then .fault .busErrorInReset
  else if a.legal = true then
    match a.kind with
    | .read => .next (hostRead a.offset s)
    | .write v => .next (hostWrite a.offset v s)
  else .fault .busError

/-- WAIT (R80), as turns: `polls` reads that find the block BUSY come before the engine's turn (log 15).
From an idle block the engine's turn does nothing and the first read ends the wait. -/
def waitTurns : (polls : Nat) → List Turn
  | 0 => [.engine, .wait 0]
  | polls + 1 => [.wait polls]

/-- The word that the last read answered has BUSY set (R25). -/
def State.readBusy (s : State) : Bool :=
  match s.reply with
  | some w => w.getLsbD 0
  | none => false

/-- One read of a WAIT (R80): STATUS is read, and the wait ends if the word has BUSY = 0. If it has
BUSY = 1 the host goes on waiting. -/
def waitTurn (polls : Nat) (s : State) : Host.Outcome State Fault Refusal :=
  match hostAccess ⟨.read, 32, Reg.status.offset⟩ s with
  | .next t =>
    if t.readBusy = true then .next { t with schedule := waitTurns polls ++ t.schedule } else .next t
  | .fault r => .fault r
  | .refused r => .refused r

end Sys2Proof.Machine
end

