-- ==== Sys2Proof/Machine/Step.lean ====
section
/-! DEFINITION. One step of NBQ: the next turn of the schedule; when none is left, the engine's turn, so
that a busy engine always completes (spec 10_state.md R20, R44, 70_reset_and_hazards.md R162; log 1). -/

namespace Sys2Proof.Machine

def step (s : State) : Host.Outcome State Fault Refusal :=
  match s.schedule with
  | [] => engineTurn s
  | .engine :: rest => engineTurn { s with schedule := rest }
  | .access a :: rest => hostAccess a { s with schedule := rest }
  | .resetLine on :: rest => .next (State.driveReset { s with schedule := rest } on)
  | .wait polls :: rest => waitTurn polls { s with schedule := rest }

/-- `s` with the command whose bits are `w` accepted and the engine's turn next (log 2). -/
def State.withFetchWord (s : State) (nbits w : Nat) : State :=
  s.presentCommand (BitVec.ofNat 32 (w % 2 ^ nbits))

end Sys2Proof.Machine
end

