-- ==== Sys2Proof/Machine/Listing.lean ====
section
/-! DEFINITION. The host's side: the lines of a listing and the turns they stand for (spec 30_encoding.md R79,
R80), command lines and the register accesses SET, GET, WAIT, PUT and PUTB, none of which is a
command word; and where a host finds the fields of STATS (43_response_parser.md R132). -/

namespace Sys2Proof.Machine

/-- The registers SET writes (R80). -/
inductive SetReg where
  | data
  | rxlen
  | txid
  deriving DecidableEq, Repr

/-- The register a SET line names (R80). -/
def SetReg.reg : SetReg → Reg
  | .data => .data
  | .rxlen => .rxlen
  | .txid => .txid

/-- A line of a listing (R79, R80). -/
inductive Line where
  | command (i : Instr)
  | set (r : SetReg) (v : Word)
  | get (r : Reg)
  | wait
  | put (sel : BufSel) (off : Nat) (v : Word)
  | putb (sel : BufSel) (off : Nat) (v : Byte)
  deriving DecidableEq, Repr

/-- An aligned 32-bit read of a register (R22). -/
def readTurn (r : Reg) : Turn := .access ⟨.read, 32, r.offset⟩

/-- An aligned 32-bit write of a register (R22). -/
def writeTurn (r : Reg) (v : Word) : Turn := .access ⟨.write v, 32, r.offset⟩

/-- The turns of a command line, its implicit WAIT included (R80). -/
def commandTurns (polls : Nat) (i : Instr) : List Turn :=
  writeTurn .cmd (encode i) :: waitTurns polls

/-- The turns a line stands for; `polls` is how many reads of its WAIT find the block BUSY before the
engine's turn, if it is BUSY at all (R80). -/
def Line.turns (polls : Nat) : Line → List Turn
  | .command i => commandTurns polls i
  | .set r v => [writeTurn r.reg v]
  | .get r => [readTurn r]
  | .wait => waitTurns polls
  | .put sel off v => writeTurn .data v :: commandTurns polls (.wr32 sel off)
  | .putb sel off v => writeTurn .data (v.setWidth 32) :: commandTurns polls (.wr8 sel off)

/-- The turns of a listing, line after line, each with its own number of busy reads. -/
def listingTurns : List (Nat × Line) → List Turn
  | [] => []
  | (polls, l) :: rest => l.turns polls ++ listingTurns rest

/-! ### The fields of STATS (R132): information for a host, no rule of the block depends on it (log 20) -/

/-- A statistics field: its first index in STATS and its width in bytes. -/
structure StatsField where
  offset : Nat
  width : Nat
  deriving DecidableEq, Repr

/-- The fields in R132's order: unit id, jumpers, test result, version, and the counters. -/
def statsFields : List StatsField :=
  [⟨0, 6⟩, ⟨6, 1⟩, ⟨7, 1⟩, ⟨8, 2⟩, ⟨10, 2⟩, ⟨12, 2⟩, ⟨14, 2⟩, ⟨16, 2⟩, ⟨18, 2⟩, ⟨20, 4⟩]
    ++ [⟨24, 4⟩, ⟨28, 2⟩, ⟨30, 2⟩, ⟨32, 2⟩, ⟨34, 2⟩, ⟨36, 2⟩, ⟨38, 2⟩, ⟨40, 2⟩, ⟨42, 2⟩, ⟨44, 2⟩]

/-- The bytes of a statistics field, in wire order. -/
def State.statsField (s : State) (f : StatsField) : List Byte := s.bytes .stats f.offset f.width

end Sys2Proof.Machine
end

