-- ==== Sys2Proof/Safety.lean ====
section
/-! DEFINITION. The terms in which claims about NBQ are stated: frames, the invariants of a run, the
malformed words of 30_encoding.md R76 written out in arithmetic, and the schedules that never raise a
bus error. -/

namespace Sys2Proof.Machine

/-- The next state of an outcome, none where the step stopped. -/
def nextOf (o : Host.Outcome State Fault Refusal) : Option State :=
  match o with
  | .next t => some t
  | .fault _ => none
  | .refused _ => none

/-- The fault of an outcome. -/
def faultOf (o : Host.Outcome State Fault Refusal) : Option Fault :=
  match o with
  | .next _ => none
  | .fault r => some r
  | .refused _ => none

/-! ### Frames -/

/-- The command ended with these two numbers in STATUS (R44, R138): IDLE, DONE, ERR and GATE. -/
structure EndedWith (t : State) (err gate : BitVec 4) : Prop where
  idle : t.engine.state = .idle
  done : t.status.done = true
  err : t.status.err = err
  gate : t.status.gate = gate

/-- The operand registers keep their values. -/
structure KeepsOperands (s t : State) : Prop where
  data : t.data = s.data
  rxlen : t.rxlen = s.rxlen
  txid : t.txid = s.txid

/-- The result state (R43) keeps its value: result registers, STATS, ENTRY and RESV. -/
structure KeepsResult (s t : State) : Prop where
  res : t.res = s.res
  stats : ∀ i, t.byte .stats i = s.byte .stats i
  entry : ∀ i, t.byte .entry i = s.byte .entry i
  resv : t.status.resv = s.status.resv

/-- The engine's latches keep their values. After a command this is the model's choice (log 21). -/
structure KeepsLatches (s t : State) : Prop where
  cw : t.engine.cw = s.engine.cw
  d : t.engine.d = s.engine.d
  len : t.engine.len = s.engine.len
  id : t.engine.id = s.engine.id

/-- The parser's cursor and entry index keep their values. After a command this is the model's choice
(log 21). -/
structure KeepsCursor (s t : State) : Prop where
  c : t.engine.c = s.engine.c
  i : t.engine.i = s.engine.i

/-- What no command touches keeps its value: OVR, the reset line, and the model's own fields. -/
structure KeepsOuter (s t : State) : Prop where
  ovr : t.status.ovr = s.status.ovr
  inReset : t.inReset = s.inReset
  epoch : t.epoch = s.epoch
  draws : t.draws = s.draws
  reply : t.reply = s.reply
  schedule : t.schedule = s.schedule

/-- Every byte outside `n` bytes of buffer `b` from index `lo` on reads as before. -/
def BytesKeptOutside (s t : State) (b : Buffer) (lo n : Nat) : Prop :=
  ∀ b' i, ¬ (b' = b ∧ lo ≤ i ∧ i < lo + n) → t.byte b' i = s.byte b' i

/-- The four buffers that PARSERESP never writes read as before (R66). -/
def KeepsInputBuffers (s t : State) : Prop :=
  ∀ b i, b ≠ .stats → b ≠ .entry → t.byte b i = s.byte b i

/-- The three conditions of R133 under which PARSERESP succeeds, for the latched length and the
bytes of RX. -/
def ParseSucceeds (s : State) : Prop :=
  s.engine.len.toNat ≤ 576 ∧ s.read16 .rx 44 = 0x0021#16
    ∧ s.engine.len.toNat = 101 + 18 * (s.byte .rx 54).toNat

/-- The gate that R133 names for a parse that fails: the first of 1, 3 and 5 whose condition fails. -/
def FailsAtGate (s : State) (gate : BitVec 4) : Prop :=
  (576 < s.engine.len.toNat ∧ gate = 1)
    ∨ (s.engine.len.toNat ≤ 576 ∧ s.read16 .rx 44 ≠ 0x0021#16 ∧ gate = 3)
    ∨ (s.engine.len.toNat ≤ 576 ∧ s.read16 .rx 44 = 0x0021#16
        ∧ s.engine.len.toNat ≠ 101 + 18 * (s.byte .rx 54).toNat ∧ gate = 5)

/-- The result state is cleared (R111, R123, R150): registers 0, STATS and ENTRY all 0x00, RESV 0. -/
structure ResultCleared (t : State) : Prop where
  idFlags : t.res.idFlags = 0
  qdAn : t.res.qdAn = 0
  nsAr : t.res.nsAr = 0
  hflags : t.res.hflags = 0
  typeClass : t.res.typeClass = 0
  ttl : t.res.ttl = 0
  rdlenN : t.res.rdlenN = 0
  hwaddrHi : t.res.hwaddrHi = 0
  hwaddrLo : t.res.hwaddrLo = 0
  stats : ∀ i, t.byte .stats i = 0
  entry : ∀ i, t.byte .entry i = 0
  resv : t.status.resv = false

/-! ### Malformed words (R76), in arithmetic on the word's number -/

/-- The sizes of R52 by the BUF field's number; the reserved ids have none. -/
def sizeByNumber (b : Nat) : Nat :=
  if b = 0 then 576 else if b = 1 then 50 else if b = 2 then 16 else if b = 3 then 33
  else if b = 4 then 46 else if b = 5 then 520 else 0

/-- The width in bytes of a codec command by its OP number: OP[1:0] is 1, 2 or 3 (R71). -/
def widthByNumber (op : Nat) : Nat :=
  if op % 4 = 1 then 1 else if op % 4 = 2 then 2 else 4

/-- R76's list of malformed words, on the fields' numbers: OP, BUF, bit 7, OFFSET, bits 31:18. -/
def MalformedFields (op buf bit7 off high : Nat) : Prop :=
  high ≠ 0 ∨ bit7 ≠ 0 ∨ op = 0 ∨ op = 4 ∨ 11 ≤ op
    ∨ ((op = 8 ∨ op = 9 ∨ op = 10) ∧ (buf ≠ 0 ∨ off ≠ 0))
    ∨ ((op = 1 ∨ op = 2 ∨ op = 3 ∨ op = 5 ∨ op = 6 ∨ op = 7)
        ∧ (buf = 6 ∨ buf = 7 ∨ (5 ≤ op ∧ (buf = 4 ∨ buf = 5))
            ∨ sizeByNumber buf < off + widthByNumber op))

/-- A malformed word (R76). -/
def MalformedWord (w : Word) : Prop :=
  MalformedFields (w.toNat % 16) (w.toNat / 16 % 8) (w.toNat / 128 % 2) (w.toNat / 256 % 1024)
    (w.toNat / 2 ^ 18)

/-! ### Invariants of a run -/

/-- The buffers' lists have their canonical form (log 11). -/
def BuffersInv (s : State) : Prop := s.bufs.wf = true

/-- The pairs of ERR and GATE that R135 lists, less the two that R129 shows unreachable. -/
def LegalErrGate (err gate : BitVec 4) : Prop :=
  (err = 0 ∧ gate = 0) ∨ (err = 2 ∧ gate = 0) ∨ (err = 4 ∧ (gate = 1 ∨ gate = 3 ∨ gate = 5))

/-- STATUS and the engine agree (R24, R27, R44, R123, R129). -/
structure StatusInv (s : State) : Prop where
  errGate : LegalErrGate s.status.err s.status.gate
  busyClears : s.engine.state = .busy → s.status.done = false ∧ s.status.err = 0
  beforeFirst : s.engine.state = .idle → s.status.done = false →
    s.status.ovr = false ∧ s.status.resv = false ∧ s.status.err = 0
  violationClears : s.status.err = 4 → s.status.resv = false
  cursor : s.engine.c ≤ 576
  index : s.engine.i ≤ 26

/-- The number of entries a held result names: `RES_RDLEN_N[23:16]` (R41). -/
def State.heldCount (s : State) : Nat := (s.res.rdlenN.extractLsb' 16 8).toNat

/-- The registers and buffers of a held result fit each other (R38, R39, R41, R42, R58, R109). -/
structure ResultDecoded (s : State) : Prop where
  type : s.res.typeClass.extractLsb' 16 16 = 0x0021#16
  hflags : s.res.hflags = hfw (s.res.idFlags.extractLsb' 0 16)
  hflagsHigh : s.res.hflags.extractLsb' 16 16 = 0
  rdlenHigh : s.res.rdlenN.extractLsb' 24 8 = 0
  count : s.heldCount ≤ 26
  hwaddrHi : s.res.hwaddrHi = s.read32 .stats 0
  hwaddrLo : s.res.hwaddrLo = (0#16 ++ s.read16 .stats 4 : BitVec 32)
  flags : ∀ k, k < s.heldCount →
    s.read32 .entry (20 * k + 16) = efw (s.read16 .entry (20 * k + 18))
  unused : ∀ i, 20 * s.heldCount ≤ i → s.byte .entry i = 0

/-- RESV says what the result state holds (R29, R57, R58, R158): a decoded result, or nothing. -/
structure ResultInv (s : State) : Prop where
  held : s.status.resv = true → ResultDecoded s
  none : s.status.resv = false → ResultCleared s

/-- While reset is asserted the block holds the values of R149 (R148, R152). -/
structure ResetHeld (s : State) : Prop where
  idle : s.engine.state = .idle
  status : s.status = ⟨false, false, false, 0, 0⟩
  data : s.data = 0
  rxlen : s.rxlen = 0
  txid : s.txid = 0
  result : ResultCleared s

/-- The invariant of the reset line. -/
def ResetInv (s : State) : Prop := s.inReset = true → ResetHeld s

/-! ### Schedules -/

/-- The turn that the next step takes is the engine's: it is named, or no turn is left (log 1). -/
def EngineNext (s : State) : Prop :=
  s.schedule = [] ∨ ∃ rest, s.schedule = .engine :: rest

/-- The state less the turn that the next step takes. -/
def State.popTurn (s : State) : State := { s with schedule := s.schedule.tail }

/-- The next step is a host write of a word to CMD that is accepted (R24). -/
def AcceptsNext (s : State) : Prop :=
  ∃ w rest, s.schedule = .access ⟨.write w, 32, 0x00⟩ :: rest ∧ s.engine.state = .idle

/-- The next step is a host write that is dropped (R49). -/
def DropsNext (s : State) : Prop :=
  ∃ w off rest, s.schedule = .access ⟨.write w, 32, off⟩ :: rest
    ∧ (off = 0x00 ∨ off = 0x08 ∨ off = 0x0C ∨ off = 0x10) ∧ s.engine.state = .busy

/-- The next step completes a command: the engine's turn, and it is BUSY (R44). -/
def CompletesNext (s : State) : Prop := EngineNext s ∧ s.engine.state = .busy

/-- The next step drives the reset line (R148). -/
def ResetNext (s : State) : Prop := ∃ on rest, s.schedule = .resetLine on :: rest

/-- Every host access of the schedule is legal (R22), and the reset line is never driven. A WAIT makes
legal accesses alone. -/
def QuietSchedule (s : State) : Prop :=
  ∀ t ∈ s.schedule, t = .engine ∨ (∃ polls, t = .wait polls)
    ∨ ∃ a, t = .access a ∧ a.bits = 32 ∧ a.offset % 4 = 0 ∧ a.offset ≤ 0x7C

/-- The steps that a turn can take from a busy engine before the engine has stepped (log 15): a WAIT makes
one busy read more than the number it carries, and then the engine steps. -/
def turnSteps : Turn → Nat
  | .access _ => 1
  | .engine => 1
  | .resetLine _ => 1
  | .wait polls => polls + 2

end Sys2Proof.Machine
end

