-- ==== Sys2Proof/Certificates/Slice0/Obligations.lean ====
section
/-! DEFINITION. The statements about NBQ, each from the rules of the spec that its docstring names. A
statement marked derived in OBLIGATIONS.json rests on the spec's sections or on a log entry of this
model, and its docstring says so. -/

open Sys2Proof Sys2Proof.Machine

/-! ### The command word (30_encoding.md) -/

/-- 30_encoding.md sections 1 and 2 (R70, R72, R73, R75): no bit of a command's encoding is lost. -/
def Obligations.EncodedCommandDecodesBack : Prop :=
  ∀ i : Instr, WellFormed i → decode (encode i) = .ok i

/-- 30_encoding.md sections 1 and 3 (R70, R76, R77): every word that decodes is the one word of a
well-formed command. -/
def Obligations.DecodedWordEncodesBack : Prop :=
  ∀ (w : Word) (i : Instr), decode w = .ok i → WellFormed i ∧ encode i = w

/-- 30_encoding.md section 5 (R81): the decoder of R77 selects the row whose match and mask fit, a word
that fits no row is rejected, and no two rows overlap. -/
def Obligations.DecodingFollowsMatchMaskTable : Prop :=
  (∀ (w : Word), ∀ r ∈ opcodeTable,
      (w &&& r.mask = r.matchWord ↔ ∃ i, decode w = .ok i ∧ i.mnemonic = r.mnemonic)) ∧
  (∀ (w : Word), (∀ r ∈ opcodeTable, w &&& r.mask ≠ r.matchWord) → ∃ e, decode w = .error e) ∧
  (∀ (w : Word), ∀ r ∈ opcodeTable, ∀ r' ∈ opcodeTable,
      w &&& r.mask = r.matchWord → w &&& r'.mask = r'.matchWord → r = r')

/-- 95_test_vectors.md sections 2.1 to 2.3, 3: a few words written out from R70 stand for these
commands, and reserved words for none. -/
def Obligations.WrittenOutWordsDecode : Prop :=
  decode 0x00023F01#32 = .ok (.rd8 (.buffer .rx) 575) ∧
  decode 0x00002C02#32 = .ok (.rd16 (.buffer .rx) 44) ∧
  decode 0x00020453#32 = .ok (.rd32 (.buffer .entry) 516) ∧
  decode 0x00000045#32 = .ok (.wr8 (.buffer .stats) 0) ∧
  decode 0x00000026#32 = .ok (.wr16 (.buffer .label) 0) ∧
  decode 0x00002F17#32 = .ok (.wr32 (.buffer .tx) 47) ∧
  decode 0x00000061#32 = .ok (.rd8 .reserved6 0) ∧
  decode 0x00000008#32 = .ok .encname ∧
  decode 0x00000009#32 = .ok .buildreq ∧
  decode 0x0000000A#32 = .ok .parseresp ∧
  decode 0x00000018#32 = .error .operandOnFixedCommand ∧
  decode 0x00040001#32 = .error .reservedBits ∧
  decode 0x0000000B#32 = .error .reservedOp

/-- 30_encoding.md section 3 (R76): every word is accepted; exactly the malformed ones complete with
invalid-argument, and then nothing but STATUS changes (and the engine is IDLE again). `MalformedWord` is
R76's list in arithmetic on the word. That the engine's latches, cursor and index too stay as they are
is this model's choice (log 21). -/
def Obligations.MalformedWordsFailClosed : Prop :=
  (∀ (s : State) (w : Word) (rest : List Turn), s.inReset = false → s.engine.state = .idle →
    s.schedule = .access ⟨.write w, 32, 0x00⟩ :: rest →
    ∃ t, step s = .next t ∧ t.engine.state = .busy ∧ t.engine.cw = w) ∧
  ∀ s : State, s.engine.state = .busy →
    ∃ t, engineTurn s = .next t ∧
      (t.status.err = 2 ↔ MalformedWord s.engine.cw) ∧
      (MalformedWord s.engine.cw →
        t = { s with
          engine := { s.engine with state := .idle }
          status := { s.status with done := true, err := 2, gate := 0 } })

/-! ### The codec (40_codec.md) -/

/-- 40_codec.md section 2: R86, whole, and its frame. That the engine's latches stay as they are after the
command is this model's choice (log 21). -/
def Obligations.Rd8LoadsOneByte : Prop :=
  ∀ (sel : BufSel) (off : Nat) (s : State),
    (∀ b, sel = .buffer b → off + 1 ≤ bufferSize b →
      exec (.rd8 sel off) s = .next { s with
        data := (s.byte b off).setWidth 32
        engine := { s.engine with state := .idle }
        status := { s.status with done := true, err := 0, gate := 0 } }) ∧
    ((sel = .reserved6 ∨ sel = .reserved7 ∨ ∃ b, sel = .buffer b ∧ bufferSize b < off + 1) →
      exec (.rd8 sel off) s = .next { s with
        engine := { s.engine with state := .idle }
        status := { s.status with done := true, err := 2, gate := 0 } }) ∧
    (off < 1024 → encode (.rd8 sel off)
      = 0x1#32 ||| sel.code.setWidth 32 <<< 4 ||| BitVec.ofNat 32 off <<< 8)

/-- 40_codec.md section 2: R87, whole, and its frame. That the engine's latches stay as they are after the
command is this model's choice (log 21). -/
def Obligations.Rd16LoadsTwoBytes : Prop :=
  ∀ (sel : BufSel) (off : Nat) (s : State),
    (∀ b, sel = .buffer b → off + 2 ≤ bufferSize b →
      exec (.rd16 sel off) s = .next { s with
        data := (s.byte b off ++ s.byte b (off + 1) : BitVec 16).setWidth 32
        engine := { s.engine with state := .idle }
        status := { s.status with done := true, err := 0, gate := 0 } }) ∧
    ((sel = .reserved6 ∨ sel = .reserved7 ∨ ∃ b, sel = .buffer b ∧ bufferSize b < off + 2) →
      exec (.rd16 sel off) s = .next { s with
        engine := { s.engine with state := .idle }
        status := { s.status with done := true, err := 2, gate := 0 } }) ∧
    (off < 1024 → encode (.rd16 sel off)
      = 0x2#32 ||| sel.code.setWidth 32 <<< 4 ||| BitVec.ofNat 32 off <<< 8)

/-- 40_codec.md section 2: R88, whole, and its frame. That the engine's latches stay as they are after the
command is this model's choice (log 21). -/
def Obligations.Rd32LoadsFourBytes : Prop :=
  ∀ (sel : BufSel) (off : Nat) (s : State),
    (∀ b, sel = .buffer b → off + 4 ≤ bufferSize b →
      exec (.rd32 sel off) s = .next { s with
        data := (s.byte b off ++ s.byte b (off + 1) ++ s.byte b (off + 2) ++ s.byte b (off + 3)
          : BitVec 32)
        engine := { s.engine with state := .idle }
        status := { s.status with done := true, err := 0, gate := 0 } }) ∧
    ((sel = .reserved6 ∨ sel = .reserved7 ∨ ∃ b, sel = .buffer b ∧ bufferSize b < off + 4) →
      exec (.rd32 sel off) s = .next { s with
        engine := { s.engine with state := .idle }
        status := { s.status with done := true, err := 2, gate := 0 } }) ∧
    (off < 1024 → encode (.rd32 sel off)
      = 0x3#32 ||| sel.code.setWidth 32 <<< 4 ||| BitVec.ofNat 32 off <<< 8)

/-- 40_codec.md section 3: R89, whole, and its frame. That the engine's latches stay as they are after the
command is this model's choice (log 21). -/
def Obligations.Wr8StoresOneByte : Prop :=
  ∀ (sel : BufSel) (off : Nat) (s : State),
    (∀ b, sel = .buffer b → b ≠ .stats → b ≠ .entry → off + 1 ≤ bufferSize b →
      ∃ t, exec (.wr8 sel off) s = .next t ∧
        t.byte b off = s.engine.d.extractLsb' 0 8 ∧
        BytesKeptOutside s t b off 1 ∧
        t = { s with
          bufs := t.bufs
          engine := { s.engine with state := .idle }
          status := { s.status with done := true, err := 0, gate := 0 } }) ∧
    ((sel = .reserved6 ∨ sel = .reserved7 ∨ sel = .buffer .stats ∨ sel = .buffer .entry
        ∨ ∃ b, sel = .buffer b ∧ bufferSize b < off + 1) →
      exec (.wr8 sel off) s = .next { s with
        engine := { s.engine with state := .idle }
        status := { s.status with done := true, err := 2, gate := 0 } }) ∧
    (off < 1024 → encode (.wr8 sel off)
      = 0x5#32 ||| sel.code.setWidth 32 <<< 4 ||| BitVec.ofNat 32 off <<< 8)

/-- 40_codec.md section 3: R90, whole, and its frame. That the engine's latches stay as they are after the
command is this model's choice (log 21). -/
def Obligations.Wr16StoresTwoBytes : Prop :=
  ∀ (sel : BufSel) (off : Nat) (s : State),
    (∀ b, sel = .buffer b → b ≠ .stats → b ≠ .entry → off + 2 ≤ bufferSize b →
      ∃ t, exec (.wr16 sel off) s = .next t ∧
        t.byte b off = s.engine.d.extractLsb' 8 8 ∧
        t.byte b (off + 1) = s.engine.d.extractLsb' 0 8 ∧
        BytesKeptOutside s t b off 2 ∧
        t = { s with
          bufs := t.bufs
          engine := { s.engine with state := .idle }
          status := { s.status with done := true, err := 0, gate := 0 } }) ∧
    ((sel = .reserved6 ∨ sel = .reserved7 ∨ sel = .buffer .stats ∨ sel = .buffer .entry
        ∨ ∃ b, sel = .buffer b ∧ bufferSize b < off + 2) →
      exec (.wr16 sel off) s = .next { s with
        engine := { s.engine with state := .idle }
        status := { s.status with done := true, err := 2, gate := 0 } }) ∧
    (off < 1024 → encode (.wr16 sel off)
      = 0x6#32 ||| sel.code.setWidth 32 <<< 4 ||| BitVec.ofNat 32 off <<< 8)

/-- 40_codec.md section 3: R91, whole, and its frame. That the engine's latches stay as they are after the
command is this model's choice (log 21). -/
def Obligations.Wr32StoresFourBytes : Prop :=
  ∀ (sel : BufSel) (off : Nat) (s : State),
    (∀ b, sel = .buffer b → b ≠ .stats → b ≠ .entry → off + 4 ≤ bufferSize b →
      ∃ t, exec (.wr32 sel off) s = .next t ∧
        t.byte b off = s.engine.d.extractLsb' 24 8 ∧
        t.byte b (off + 1) = s.engine.d.extractLsb' 16 8 ∧
        t.byte b (off + 2) = s.engine.d.extractLsb' 8 8 ∧
        t.byte b (off + 3) = s.engine.d.extractLsb' 0 8 ∧
        BytesKeptOutside s t b off 4 ∧
        t = { s with
          bufs := t.bufs
          engine := { s.engine with state := .idle }
          status := { s.status with done := true, err := 0, gate := 0 } }) ∧
    ((sel = .reserved6 ∨ sel = .reserved7 ∨ sel = .buffer .stats ∨ sel = .buffer .entry
        ∨ ∃ b, sel = .buffer b ∧ bufferSize b < off + 4) →
      exec (.wr32 sel off) s = .next { s with
        engine := { s.engine with state := .idle }
        status := { s.status with done := true, err := 2, gate := 0 } }) ∧
    (off < 1024 → encode (.wr32 sel off)
      = 0x7#32 ||| sel.code.setWidth 32 <<< 4 ||| BitVec.ofNat 32 off <<< 8)

/-- 20_memory.md section 1 (R52) and section 3 (R64): the ids, sizes and codec rights of the six
buffers, and which accesses the check lets through. -/
def Obligations.BufferTableAsListed : Prop :=
  (Buffer.code .rx = 0 ∧ Buffer.code .tx = 1 ∧ Buffer.code .label = 2 ∧ Buffer.code .enc = 3
    ∧ Buffer.code .stats = 4 ∧ Buffer.code .entry = 5) ∧
  (bufferSize .rx = 576 ∧ bufferSize .tx = 50 ∧ bufferSize .label = 16 ∧ bufferSize .enc = 33
    ∧ bufferSize .stats = 46 ∧ bufferSize .entry = 520) ∧
  (∀ dir sel off n b, codecCheck dir sel off n = some b ↔
    sel = .buffer b ∧ off + n ≤ bufferSize b
      ∧ ¬ (dir = .write ∧ (b = .stats ∨ b = .entry)))

/-- 40_codec.md section 4, law 1 (R92): an in-bounds write and then a read of the same width give the
value modulo 256 to the number of bytes. -/
def Obligations.WriteThenReadReturnsValue : Prop :=
  ∀ (s : State) (b : Buffer) (off : Nat), b ≠ .stats → b ≠ .entry →
    (off + 1 ≤ bufferSize b → ∃ t u, exec (.wr8 (.buffer b) off) s = .next t
      ∧ exec (.rd8 (.buffer b) off) (t.accept (encode (.rd8 (.buffer b) off))) = .next u
      ∧ u.data.toNat = s.engine.d.toNat % 256) ∧
    (off + 2 ≤ bufferSize b → ∃ t u, exec (.wr16 (.buffer b) off) s = .next t
      ∧ exec (.rd16 (.buffer b) off) (t.accept (encode (.rd16 (.buffer b) off))) = .next u
      ∧ u.data.toNat = s.engine.d.toNat % 65536) ∧
    (off + 4 ≤ bufferSize b → ∃ t u, exec (.wr32 (.buffer b) off) s = .next t
      ∧ exec (.rd32 (.buffer b) off) (t.accept (encode (.rd32 (.buffer b) off))) = .next u
      ∧ u.data.toNat = s.engine.d.toNat % 4294967296)

/-- 20_memory.md section 2 (R61): an access of one width sees the bytes that an access of another width
reads or wrote, and the rule's own example. The last clause runs its WR8 with no acceptance after the
WR16: that the value operand latched for the WR16 is still there is this model's choice (log 21). -/
def Obligations.MixedWidthReadsSeeTheSameBytes : Prop :=
  ∀ (s : State) (b : Buffer) (off : Nat),
    (off + 2 ≤ bufferSize b → ∃ h b0 b1 : State,
      exec (.rd16 (.buffer b) off) s = .next h ∧
      exec (.rd8 (.buffer b) off) s = .next b0 ∧
      exec (.rd8 (.buffer b) (off + 1)) s = .next b1 ∧
      h.data.toNat = b0.data.toNat * 256 + b1.data.toNat) ∧
    (off + 4 ≤ bufferSize b → ∃ w h0 h2 : State,
      exec (.rd32 (.buffer b) off) s = .next w ∧
      exec (.rd16 (.buffer b) off) s = .next h0 ∧
      exec (.rd16 (.buffer b) (off + 2)) s = .next h2 ∧
      w.data.toNat = h0.data.toNat * 65536 + h2.data.toNat) ∧
    (off + 4 ≤ bufferSize b → b ≠ .stats → b ≠ .entry → s.engine.d = 0x11223344#32 →
      ∃ t h0 h2 b3 : State, exec (.wr32 (.buffer b) off) s = .next t ∧
        exec (.rd16 (.buffer b) off) t = .next h0 ∧ h0.data = 0x1122#32 ∧
        exec (.rd16 (.buffer b) (off + 2)) t = .next h2 ∧ h2.data = 0x3344#32 ∧
        exec (.rd8 (.buffer b) (off + 3)) t = .next b3 ∧ b3.data = 0x44#32) ∧
    (off + 4 ≤ bufferSize b → b ≠ .stats → b ≠ .entry →
      ∃ t u w : State, exec (.wr16 (.buffer b) off) s = .next t ∧
        exec (.wr8 (.buffer b) (off + 3)) t = .next u ∧ exec (.rd32 (.buffer b) off) u = .next w ∧
        w.data.toNat = s.engine.d.toNat % 65536 * 65536 + (s.byte b (off + 2)).toNat * 256
          + s.engine.d.toNat % 256)

/-! ### The name encoder (41_name_encoder.md) -/

/-- R93 (41_name_encoder.md), whole. -/
def Obligations.HalfAsciiOfOneByte : Prop :=
  ∀ b : Byte,
    (haHi b).toNat = 0x41 + b.toNat / 16 ∧ (haLo b).toNat = 0x41 + b.toNat % 16 ∧
    0x41 ≤ (haHi b).toNat ∧ (haHi b).toNat ≤ 0x50 ∧ 0x41 ≤ (haLo b).toNat ∧ (haLo b).toNat ≤ 0x50

/-- 41_name_encoder.md: R94, whole, and its frame. That the engine's latches, cursor and index stay as they
are after the command is this model's choice (log 21). -/
def Obligations.EncnameEncodesTheLabel : Prop :=
  encode .encname = 0x00000008#32 ∧
  ∀ s : State, ∃ t, exec .encname s = .next t ∧ EndedWith t 0 0 ∧
    (∀ k, k < 16 →
      (t.byte .enc (2 * k)).toNat = 0x41 + (s.byte .label k).toNat / 16 ∧
      (t.byte .enc (2 * k + 1)).toNat = 0x41 + (s.byte .label k).toNat % 16) ∧
    t.byte .enc 32 = 0x00#8 ∧
    BytesKeptOutside s t .enc 0 33 ∧
    KeepsOperands s t ∧ KeepsResult s t ∧ KeepsLatches s t ∧ KeepsCursor s t ∧ KeepsOuter s t

/-- R95 (41_name_encoder.md), whole: the four laws of the encoder, for any two runs of ENCNAME. -/
def Obligations.EncoderLaws : Prop :=
  ∀ s s' : State, ∃ t t', exec .encname s = .next t ∧ exec .encname s' = .next t' ∧
    (∀ k, k < 32 → 0x41 ≤ (t.byte .enc k).toNat ∧ (t.byte .enc k).toNat ≤ 0x50) ∧
    ((∀ k, k < 32 → t.byte .enc k = t'.byte .enc k) ↔
      ∀ k, k < 16 → s.byte .label k = s'.byte .label k) ∧
    (∀ k, k < 16 → s.byte .label k = s'.byte .label k →
      t.byte .enc (2 * k) = t'.byte .enc (2 * k)
        ∧ t.byte .enc (2 * k + 1) = t'.byte .enc (2 * k + 1)) ∧
    (∀ k, k < 16 → s.byte .label k
      = (t.byte .enc (2 * k) - 0x41#8) <<< 4 ||| (t.byte .enc (2 * k + 1) - 0x41#8)) ∧
    (∀ k, k < 33 → (t.byte .enc k = 0x00#8 ↔ k = 32))

/-! ### The request builder (42_request_builder.md) -/

/-- R98 (42_request_builder.md), whole: every sub-field of an assembled flags word stands at its
position of R106, and the request's word is 0x0000. -/
def Obligations.RequestFlagsWord : Prop :=
  (∀ (r : BitVec 1) (opcode : BitVec 4) (aa tc rd ra : BitVec 1) (nm : BitVec 2) (b : BitVec 1)
      (rc : BitVec 4),
    (assembleHeaderFlags r opcode aa tc rd ra nm b rc).toNat
      = r.toNat * 2 ^ 15 + opcode.toNat * 2 ^ 11 + aa.toNat * 2 ^ 10 + tc.toNat * 2 ^ 9
        + rd.toNat * 2 ^ 8 + ra.toNat * 2 ^ 7 + nm.toNat * 2 ^ 5 + b.toNat * 2 ^ 4 + rc.toNat) ∧
  requestFlags = assembleHeaderFlags 0 0 0 0 0 0 0 0 0 ∧ requestFlags = 0x0000#16

/-- 42_request_builder.md (R97, R99, R100, R101 and R102, whole): the 50 bytes of the request, and nothing
but TX and STATUS changes. That the engine's latches, cursor and index too stay as they are is this
model's choice (log 21). -/
def Obligations.BuildreqWritesTheRequest : Prop :=
  encode .buildreq = 0x00000009#32 ∧
  ∀ s : State, ∃ t, exec .buildreq s = .next t ∧ EndedWith t 0 0 ∧
    t.byte .tx 0 = s.engine.id.extractLsb' 8 8 ∧ t.byte .tx 1 = s.engine.id.extractLsb' 0 8 ∧
    t.byte .tx 2 = 0x00#8 ∧ t.byte .tx 3 = 0x00#8 ∧
    t.byte .tx 4 = 0x00#8 ∧ t.byte .tx 5 = 0x01#8 ∧
    (∀ i, 6 ≤ i → i < 12 → t.byte .tx i = 0x00#8) ∧
    t.byte .tx 12 = 0x20#8 ∧ t.byte .tx 13 = 0x43#8 ∧ t.byte .tx 14 = 0x4B#8 ∧
    (∀ i, 15 ≤ i → i < 45 → t.byte .tx i = 0x41#8) ∧
    t.byte .tx 45 = 0x00#8 ∧
    t.byte .tx 46 = 0x00#8 ∧ t.byte .tx 47 = 0x21#8 ∧
    t.byte .tx 48 = 0x00#8 ∧ t.byte .tx 49 = 0x01#8 ∧
    BytesKeptOutside s t .tx 0 50 ∧
    KeepsOperands s t ∧ KeepsResult s t ∧ KeepsLatches s t ∧ KeepsCursor s t ∧ KeepsOuter s t

/-- R103 (42_request_builder.md), whole: reading TX through the codec gives back the builder's inputs,
and the name is what ENCNAME makes of the wildcard label. -/
def Obligations.RequestReadsBack : Prop :=
  ∀ s : State, ∃ t, exec .buildreq s = .next t ∧
    (∃ u, exec (.rd16 (.buffer .tx) 0) (t.accept (encode (.rd16 (.buffer .tx) 0))) = .next u
      ∧ u.data = s.engine.id.setWidth 32) ∧
    (∃ u, exec (.rd16 (.buffer .tx) 4) (t.accept (encode (.rd16 (.buffer .tx) 4))) = .next u
      ∧ u.data = 1#32) ∧
    (∀ off, off = 6 ∨ off = 8 ∨ off = 10 →
      ∃ u, exec (.rd16 (.buffer .tx) off) (t.accept (encode (.rd16 (.buffer .tx) off))) = .next u
        ∧ u.data = 0#32) ∧
    (∀ s' : State, s'.byte .label 0 = 0x2A#8 →
      (∀ k, 1 ≤ k → k < 16 → s'.byte .label k = 0x00#8) →
      ∃ t', exec .encname s' = .next t' ∧ ∀ k, k < 32 → t.byte .tx (13 + k) = t'.byte .enc k)

/-- R104 (42_request_builder.md), whole: a request in RX with a length of at most 50 fails at gate 3. -/
def Obligations.RequestIsNoResponse : Prop :=
  50 < Config.respLen 0 ∧ Config.respLen 0 = 101 ∧
  ∀ r q s : State, exec .buildreq r = .next q → (∀ i, i < 50 → s.byte .rx i = q.byte .tx i) →
    s.engine.len.toNat ≤ 50 →
    ∃ t, exec .parseresp s = .next t ∧ EndedWith t 4 3 ∧ s.read16 .rx 44 = 0x4100#16
      ∧ ResultCleared t

/-! ### The response parser (43_response_parser.md) -/

/-- R9 (00_scope.md), whole: the derived constants and the largest count that fits the ceiling. -/
def Obligations.ResponseLengths : Prop :=
  Config.entriesOff = 55 ∧ (∀ n, Config.respLen n = 101 + 18 * n) ∧
  Config.respLen 26 = 569 ∧ Config.respLen 27 = 587 ∧
  (∀ n, Config.respLen n ≤ Config.rxCap ↔ n ≤ 26)

/-- R106 and R107 (43_response_parser.md), whole: which bits of the flags word each accessor takes, where
each stands in HFW (the places of R38), and so from which bit of the word each bit of HFW comes. -/
def Obligations.HeaderFlagsView : Prop :=
  (∀ f : Half,
    hR f = f.extractLsb' 15 1 ∧ hOP f = f.extractLsb' 11 4 ∧ hAA f = f.extractLsb' 10 1 ∧
    hTC f = f.extractLsb' 9 1 ∧ hRD f = f.extractLsb' 8 1 ∧ hRA f = f.extractLsb' 7 1 ∧
    hNMRSV f = f.extractLsb' 5 2 ∧ hB f = f.extractLsb' 4 1 ∧ hRC f = f.extractLsb' 0 4) ∧
  (∀ f : Half,
    (hfw f).extractLsb' 0 1 = hR f ∧ (hfw f).extractLsb' 1 4 = hOP f ∧
    (hfw f).extractLsb' 5 1 = hAA f ∧ (hfw f).extractLsb' 6 1 = hTC f ∧
    (hfw f).extractLsb' 7 1 = hRD f ∧ (hfw f).extractLsb' 8 1 = hRA f ∧
    (hfw f).extractLsb' 9 1 = hB f ∧ (hfw f).extractLsb' 10 4 = hRC f ∧
    (hfw f).extractLsb' 14 2 = hNMRSV f ∧ (hfw f).extractLsb' 16 16 = 0#16) ∧
  (∀ f : Half,
    (hfw f).extractLsb' 0 1 = f.extractLsb' 15 1 ∧ (hfw f).extractLsb' 1 4 = f.extractLsb' 11 4 ∧
    (hfw f).extractLsb' 5 1 = f.extractLsb' 10 1 ∧ (hfw f).extractLsb' 6 1 = f.extractLsb' 9 1 ∧
    (hfw f).extractLsb' 7 1 = f.extractLsb' 8 1 ∧ (hfw f).extractLsb' 8 1 = f.extractLsb' 7 1 ∧
    (hfw f).extractLsb' 9 1 = f.extractLsb' 4 1 ∧ (hfw f).extractLsb' 10 4 = f.extractLsb' 0 4 ∧
    (hfw f).extractLsb' 14 2 = f.extractLsb' 5 2) ∧
  (∀ f g : Half, hfw f = hfw g → f = g) ∧
  hfw 0x8400#16 = 0x00000021#32

/-- R109 (43_response_parser.md), whole, with the bits of the entry flag word that R108 gives each accessor,
and so from which bit of the word each bit of EFW comes (R125 for bits 31:23). -/
def Obligations.EntryFlagsView : Prop :=
  (∀ e : Half,
    eG e = e.extractLsb' 15 1 ∧ eONT e = e.extractLsb' 13 2 ∧ eDRG e = e.extractLsb' 12 1 ∧
    eCNF e = e.extractLsb' 11 1 ∧ eACT e = e.extractLsb' 10 1 ∧ ePRM e = e.extractLsb' 9 1 ∧
    eRSV e = e.extractLsb' 0 9) ∧
  (∀ e : Half,
    (efw e).extractLsb' 0 16 = e ∧
    (efw e).extractLsb' 16 1 = eG e ∧ (efw e).extractLsb' 17 2 = eONT e ∧
    (efw e).extractLsb' 19 1 = eDRG e ∧ (efw e).extractLsb' 20 1 = eCNF e ∧
    (efw e).extractLsb' 21 1 = eACT e ∧ (efw e).extractLsb' 22 1 = ePRM e ∧
    (efw e).extractLsb' 23 9 = eRSV e) ∧
  (∀ e : Half,
    (efw e).extractLsb' 16 1 = e.extractLsb' 15 1 ∧ (efw e).extractLsb' 17 2 = e.extractLsb' 13 2 ∧
    (efw e).extractLsb' 19 1 = e.extractLsb' 12 1 ∧ (efw e).extractLsb' 20 1 = e.extractLsb' 11 1 ∧
    (efw e).extractLsb' 21 1 = e.extractLsb' 10 1 ∧ (efw e).extractLsb' 22 1 = e.extractLsb' 9 1 ∧
    (efw e).extractLsb' 23 9 = e.extractLsb' 0 9) ∧
  efw 0x0400#16 = 0x00200400#32 ∧ efw 0x8400#16 = 0x00218400#32

/-- R133 (43_response_parser.md), whole: when PARSERESP succeeds, and the gate at which it fails. -/
def Obligations.ParserespOutcome : Prop :=
  ∀ s : State, ∃ t, exec .parseresp s = .next t ∧
    t.engine.state = .idle ∧ t.status.done = true ∧
    (t.status.err = 0 ↔ s.engine.len.toNat ≤ 576 ∧ s.read16 .rx 44 = 0x0021#16
      ∧ s.engine.len.toNat = 101 + 18 * (s.byte .rx 54).toNat) ∧
    (t.status.err = 0 → t.status.gate = 0) ∧
    (t.status.err ≠ 0 → t.status.err = 4 ∧ FailsAtGate s t.status.gate)

/-- 43_response_parser.md sections 3 and 5 (R122, R128 and R130, whole): everything a successful parse
commits, and its frame. That the engine's latches stay as they are after the command is this model's
choice (log 21). -/
def Obligations.ParserespCommitsTheResponse : Prop :=
  encode .parseresp = 0x0000000A#32 ∧
  ∀ s : State, ParseSucceeds s → ∃ t, exec .parseresp s = .next t ∧ EndedWith t 0 0 ∧
    t.status.resv = true ∧
    t.res.idFlags = (s.read16 .rx 0 ++ s.read16 .rx 2 : BitVec 32) ∧
    t.res.qdAn = (s.read16 .rx 4 ++ s.read16 .rx 6 : BitVec 32) ∧
    t.res.nsAr = (s.read16 .rx 8 ++ s.read16 .rx 10 : BitVec 32) ∧
    t.res.hflags = hfw (s.read16 .rx 2) ∧
    t.res.typeClass = (0x0021#16 ++ s.read16 .rx 46 : BitVec 32) ∧
    t.res.ttl = s.read32 .rx 48 ∧
    t.res.rdlenN = (0x00#8 ++ s.byte .rx 54 ++ s.read16 .rx 52 : BitVec 32) ∧
    (∀ j, j < 46 → t.byte .stats j = s.byte .rx (55 + 18 * (s.byte .rx 54).toNat + j)) ∧
    t.res.hwaddrHi = s.read32 .rx (55 + 18 * (s.byte .rx 54).toNat) ∧
    t.res.hwaddrHi = t.read32 .stats 0 ∧
    t.res.hwaddrLo = (0x0000#16 ++ s.read16 .rx (55 + 18 * (s.byte .rx 54).toNat + 4) : BitVec 32) ∧
    t.res.hwaddrLo = (0x0000#16 ++ t.read16 .stats 4 : BitVec 32) ∧
    (∀ k, k < (s.byte .rx 54).toNat →
      (∀ j, j < 16 → t.byte .entry (20 * k + j) = s.byte .rx (55 + 18 * k + j)) ∧
      t.read32 .entry (20 * k + 16) = efw (s.read16 .rx (55 + 18 * k + 16))) ∧
    (∀ i, 20 * (s.byte .rx 54).toNat ≤ i → t.byte .entry i = 0x00#8) ∧
    (∀ i, 46 ≤ i → t.byte .stats i = 0x00#8) ∧
    KeepsInputBuffers s t ∧ KeepsOperands s t ∧ KeepsLatches s t ∧ KeepsOuter s t

/-- 43_response_parser.md section 3 (R123, whole): a parse that fails leaves the result state cleared,
whatever it held, and changes nothing else but STATUS. That the engine's latches stay as they are
after the command is this model's choice (log 21). -/
def Obligations.ParserespFailureClears : Prop :=
  ∀ s : State, ¬ ParseSucceeds s → ∃ t gate, exec .parseresp s = .next t ∧ FailsAtGate s gate ∧
    EndedWith t 4 gate ∧ ResultCleared t ∧
    KeepsInputBuffers s t ∧ KeepsOperands s t ∧ KeepsLatches s t ∧ KeepsOuter s t

/-- R126 (43_response_parser.md), whole: a response shorter than 101 bytes fails whatever RX holds, at
gate 3 or 5; the bytes past its end decide only which, and no byte from index 55 on plays a part. -/
def Obligations.ShortResponseFails : Prop :=
  ∀ s : State, s.engine.len.toNat < 101 →
    ∃ t, exec .parseresp s = .next t ∧ ResultCleared t ∧
      (s.read16 .rx 44 ≠ 0x0021#16 → EndedWith t 4 3) ∧
      (s.read16 .rx 44 = 0x0021#16 → EndedWith t 4 5) ∧
      ∀ m : Memory,
        (∀ i, i < 55 → State.byte { s with bufs := { s.bufs with rx := m } } .rx i = s.byte .rx i) →
        exec .parseresp { s with bufs := { s.bufs with rx := m } }
          = .next { t with bufs := { t.bufs with rx := m } }

/-- R127 (43_response_parser.md), whole: PARSERESP depends on no other byte of RX than those it reads.
Two states that differ in RX alone, and agree on those bytes, end alike but for RX. -/
def Obligations.ParserespReadExtent : Prop :=
  ∀ (s : State) (m : Memory),
    (∀ i, s.engine.len.toNat ≤ 576 →
      (i < 12 ∨ (44 ≤ i ∧ i ≤ 54) ∨ (55 ≤ i ∧ i < s.engine.len.toNat ∧ ParseSucceeds s)) →
      State.byte { s with bufs := { s.bufs with rx := m } } .rx i = s.byte .rx i) →
    ∃ t, exec .parseresp s = .next t ∧
      exec .parseresp { s with bufs := { s.bufs with rx := m } }
        = .next { t with bufs := { t.bufs with rx := m } }

/-- 43_response_parser.md section 5 (R129): with gates 1 and 5 passed, N is at most 26, the entry loop never
finds ENTRY full, and the cursor ends at L; gates 6 and 8, and their codes, are never produced. That
the state after the command still holds the cursor's last value is this model's choice (log 9). -/
def Obligations.GatesSixAndEightUnreachable : Prop :=
  (∀ s : State, ParseSucceeds s →
    (s.byte .rx 54).toNat ≤ 26 ∧
    takeEntries s (s.byte .rx 54).toNat 0 55
      = .taken (List.ofFn fun k : Fin (s.byte .rx 54).toNat => entryAt s (55 + 18 * k.val))
          (s.engine.len.toNat - 46) (s.byte .rx 54).toNat ∧
    ∃ t, exec .parseresp s = .next t ∧ t.engine.c = s.engine.len.toNat) ∧
  ∀ s : State, ∃ t, exec .parseresp s = .next t ∧
    t.status.gate ≠ 6 ∧ t.status.gate ≠ 8 ∧ t.status.err ≠ 1 ∧ t.status.err ≠ 6

/-! ### Whole-machine rules -/

/-- 10_state.md section 2.4 (R43) and 43_response_parser.md section 5 (R131): no step but the engine's on
a well-formed PARSERESP, and no other event but the reset line, changes the result state. -/
def Obligations.OnlyParserespWritesTheResult : Prop :=
  ∀ s t : State, step s = .next t →
    ¬ (CompletesNext s ∧ decode s.engine.cw = .ok .parseresp) → ¬ ResetNext s → KeepsResult s t

/-- 20_memory.md section 3 (R66): a command issued twice with nothing between leaves the same state (the
engine's own latches apart, which nothing observes; log 21). That a byte nothing has written reads the
same twice is this model's form of R66 (log 3). -/
def Obligations.CommandsAreIdempotent : Prop :=
  ∀ (s : State) (w : Word), ∃ t u,
    engineTurn (s.accept w) = .next t ∧ engineTurn (t.accept w) = .next u ∧
    u.status = t.status ∧ u.res = t.res ∧ KeepsOperands t u ∧ KeepsOuter t u ∧
    ∀ b i, u.byte b i = t.byte b i

/-- 10_state.md section 3 (R44), 60_exceptions.md sections 1 and 2 (R134, R138, R143): a busy engine's
step never stops. It ends IDLE with DONE, one of the listed error codes, and a gate only for a
PARSERESP. That the engine's latches stay as they are is this model's choice (log 21). -/
def Obligations.EveryAcceptedCommandCompletes : Prop :=
  ∀ s : State, s.engine.state = .busy →
    ∃ t, engineTurn s = .next t ∧ t.engine.state = .idle ∧ t.status.done = true ∧
      LegalErrGate t.status.err t.status.gate ∧
      (t.status.gate ≠ 0 → decode s.engine.cw = .ok .parseresp) ∧
      t.rxlen = s.rxlen ∧ t.txid = s.txid ∧ KeepsLatches s t ∧ KeepsOuter s t

/-- The model's step (log 1; 10_state.md section 3, R44): with the engine's turn next and a command that
decodes, the step is that command's meaning on the state less that turn; a word that does not decode
completes with invalid-argument; an idle engine has no step. -/
def Obligations.StepRunsTheLatchedCommand : Prop :=
  ∀ s : State, EngineNext s →
    (s.engine.state = .busy → ∀ i, decode s.engine.cw = .ok i → step s = exec i s.popTurn) ∧
    (s.engine.state = .busy → ∀ e, decode s.engine.cw = .error e →
      step s = .next s.popTurn.raiseInvalidArgument) ∧
    (s.engine.state = .idle → step s = .next s.popTurn)

/-- 10_state.md section 2 (R22), 70_reset_and_hazards.md section 1 (R148), 60_exceptions.md section 1
(R134): a step stops exactly when the next turn is a host access that is not legal or that comes while
reset is asserted; a WAIT's read is legal. -/
def Obligations.StepStopsOnlyOnBadAccess : Prop :=
  ∀ s : State, (∃ t, step s = .next t) ↔
    (∀ a rest, s.schedule = .access a :: rest →
      s.inReset = false ∧ a.bits = 32 ∧ a.offset % 4 = 0 ∧ a.offset ≤ 0x7C) ∧
    (∀ polls rest, s.schedule = .wait polls :: rest → s.inReset = false)

/-- 70_reset_and_hazards.md section 4 (R162), 10_state.md section 3 (R44): with every scheduled host access
legal, a busy engine completes within one step more than the turns scheduled can take (log 15). -/
def Obligations.BusyEngineCompletesInBoundedSteps : Prop :=
  ∀ s : State, s.engine.state = .busy → s.inReset = false → QuietSchedule s →
    ∃ k t, k ≤ (s.schedule.map turnSteps).sum + 1 ∧ Host.Core.run Sys2Proof.core k s = .next t ∧
      State.busy t = false ∧ Status.done (State.status t) = true

/-- 30_encoding.md section 4 (R80): the turns of `PUT b, off, v` from an idle block, with any number of
busy reads in its WAIT, store the four bytes of v and end IDLE without an error (the turns by log 1,
the number of busy reads by log 15). -/
def Obligations.PutLineStoresTheWord : Prop :=
  ∀ (s : State) (polls : Nat) (b : Buffer) (off : Nat) (v : Word),
    b ≠ .stats → b ≠ .entry → off + 4 ≤ bufferSize b → s.engine.state = .idle →
    s.inReset = false → s.schedule = Line.turns polls (.put (.buffer b) off v) →
    ∃ t : State, Host.Core.run Sys2Proof.core (polls + 4) s = .next t ∧ t.schedule = [] ∧
      EndedWith t 0 0 ∧ t.data = v ∧ t.read32 b off = v ∧ BytesKeptOutside s t b off 4

/-- 30_encoding.md section 4 (R80), 70_reset_and_hazards.md section 4 (R162): each read of a WAIT is a read of
STATUS; it ends the wait exactly when it finds BUSY = 0. From an idle block one read ends it. From a
busy block the reads go on until the engine has stepped, and the last one finds it idle (the number
of busy reads before that by log 15). -/
def Obligations.WaitReadsStatusUntilIdle : Prop :=
  (∀ (s : State) (polls : Nat) (rest : List Turn), s.inReset = false →
    s.schedule = .wait polls :: rest →
    (s.engine.state = .idle →
      step s = .next { s with schedule := rest, reply := some s.statusWord }) ∧
    (s.engine.state = .busy →
      step s = .next { s with schedule := waitTurns polls ++ rest, reply := some s.statusWord })) ∧
  (∀ (s : State) (polls : Nat) (rest : List Turn), s.inReset = false → s.engine.state = .idle →
    s.schedule = waitTurns polls ++ rest →
    ∃ k : Nat, k ≤ 2 ∧ Host.Core.run Sys2Proof.core k s
      = .next { s with schedule := rest, reply := some s.statusWord }) ∧
  (∀ (s : State) (polls : Nat) (rest : List Turn), s.inReset = false → s.engine.state = .busy →
    s.schedule = waitTurns polls ++ rest →
    ∃ t : State, Host.Core.run Sys2Proof.core (polls + 2) s = .next t ∧ t.schedule = rest ∧
      t.engine.state = .idle ∧ t.status.done = true ∧ t.reply = some t.statusWord)

/-- 30_encoding.md section 4 (R79, R80), 10_state.md sections 2.1 and 3 (R24, R44): the turns of a command line
from an idle block, with any number of busy reads in its WAIT, run the command on the accepted state
and leave the turns after them (the turns by log 1, the number of busy reads by log 15). -/
def Obligations.CommandLineRunsItsCommand : Prop :=
  ∀ (s : State) (polls : Nat) (i : Instr) (rest : List Turn), WellFormed i →
    s.inReset = false → s.engine.state = .idle →
    s.schedule = Line.turns polls (.command i) ++ rest →
    ∃ (r : Option Word) (u : State),
      exec i { s.accept (encode i) with schedule := .wait 0 :: rest, reply := r } = .next u ∧
      Host.Core.run Sys2Proof.core (polls + 3) s
        = .next { u with schedule := rest, reply := some u.statusWord }

/-! ### The host interface (10_state.md) -/

/-- R22 (10_state.md), whole: an aligned 32-bit access at an offset of at most 0x7C is taken, any other is
a bus error. -/
def Obligations.BadAccessIsABusError : Prop :=
  ∀ (s : State) (a : HostAccess) (rest : List Turn),
    s.schedule = .access a :: rest → s.inReset = false →
    (a.bits = 32 ∧ a.offset % 4 = 0 ∧ a.offset ≤ 0x7C → ∃ t, step s = .next t) ∧
    (¬ (a.bits = 32 ∧ a.offset % 4 = 0 ∧ a.offset ≤ 0x7C) → step s = .fault .busError)

/-- 10_state.md section 2 (R21, R23): reserved offsets read 0 in an idle block, and a write to one, idle or
busy, changes nothing; reserved bits of STATUS, RXLEN and TXID read 0. That a busy block answers a
read of a reserved offset with a free value is this model's choice (log 4), as is that the write
sets no OVR (log 12). -/
def Obligations.ReservedOffsetsAndBits : Prop :=
  (∀ (s : State) (off : Nat) (rest : List Turn),
    off % 4 = 0 → 0x38 ≤ off → off ≤ 0x7C → s.inReset = false →
    (s.schedule = .access ⟨.read, 32, off⟩ :: rest → s.engine.state = .idle →
      step s = .next { s with schedule := rest, reply := some 0 }) ∧
    (s.schedule = .access ⟨.read, 32, off⟩ :: rest → s.engine.state = .busy →
      step s = .next { s with
        schedule := rest
        reply := some (Config.busyRead s.draws)
        draws := s.draws + 1 }) ∧
    (∀ v, s.schedule = .access ⟨.write v, 32, off⟩ :: rest →
      step s = .next { s with schedule := rest, reply := none })) ∧
  (∀ s : State,
    s.statusWord.extractLsb' 4 4 = 0 ∧ s.statusWord.extractLsb' 16 16 = 0 ∧
    (s.regValue .rxlen).extractLsb' 16 16 = 0 ∧ (s.regValue .txid).extractLsb' 16 16 = 0)

/-- R24 (10_state.md), whole: acceptance, a write while BUSY, and a read of CMD. -/
def Obligations.AcceptanceLatchesTheCommand : Prop :=
  ∀ (s : State) (w : Word) (rest : List Turn), s.inReset = false →
    (s.schedule = .access ⟨.write w, 32, 0x00⟩ :: rest → s.engine.state = .idle →
      step s = .next { s with
        schedule := rest
        reply := none
        status := { s.status with done := false, ovr := false, err := 0, gate := 0 }
        engine := { s.engine with
          state := .busy, cw := w, d := s.data, len := s.rxlen, id := s.txid } }) ∧
    (s.schedule = .access ⟨.write w, 32, 0x00⟩ :: rest → s.engine.state = .busy →
      step s = .next { s with
        schedule := rest
        reply := none
        status := { s.status with ovr := true } }) ∧
    (s.schedule = .access ⟨.read, 32, 0x00⟩ :: rest → s.engine.state = .idle →
      step s = .next { s with schedule := rest, reply := some 0 })

/-- 10_state.md section 2.2 (R25): the places of the STATUS fields, its value at reset, and that a read of
it, idle or busy, is exact and changes nothing. -/
def Obligations.StatusFieldsAndRead : Prop :=
  (∀ s : State,
    s.statusWord.getLsbD 0 = decide (s.engine.state = .busy) ∧
    s.statusWord.getLsbD 1 = s.status.done ∧ s.statusWord.getLsbD 2 = s.status.ovr ∧
    s.statusWord.getLsbD 3 = s.status.resv ∧ s.statusWord.extractLsb' 4 4 = 0 ∧
    s.statusWord.extractLsb' 8 4 = s.status.err ∧ s.statusWord.extractLsb' 12 4 = s.status.gate ∧
    s.statusWord.extractLsb' 16 16 = 0) ∧
  State.reset.statusWord = 0x00000000#32 ∧
  (∀ (s : State) (rest : List Turn), s.inReset = false →
    s.schedule = .access ⟨.read, 32, 0x04⟩ :: rest →
    step s = .next { s with schedule := rest, reply := some s.statusWord })

/-- 10_state.md section 4 (R49): while BUSY a write to CMD, DATA, RXLEN or TXID is dropped and sets OVR; a
read of any defined register other than STATUS answers a free draw and changes nothing of the block;
STATUS reads exactly. That CMD, which R21 and R24 say reads 0, answers a free draw while BUSY too is
this model's choice (log 4). -/
def Obligations.AccessesWhileBusy : Prop :=
  ∀ (s : State) (off : Nat) (rest : List Turn), s.inReset = false → s.engine.state = .busy →
    (∀ v, s.schedule = .access ⟨.write v, 32, off⟩ :: rest →
      off = 0x00 ∨ off = 0x08 ∨ off = 0x0C ∨ off = 0x10 →
      step s = .next { s with
        schedule := rest
        reply := none
        status := { s.status with ovr := true } }) ∧
    (s.schedule = .access ⟨.read, 32, off⟩ :: rest → off % 4 = 0 → off ≤ 0x34 → off ≠ 0x04 →
      step s = .next { s with
        schedule := rest
        reply := some (Config.busyRead s.draws)
        draws := s.draws + 1 }) ∧
    (s.schedule = .access ⟨.read, 32, 0x04⟩ :: rest →
      step s = .next { s with schedule := rest, reply := some s.statusWord })

/-- 10_state.md section 4 (R48): a write to a read-only register is ignored, without a bus error, idle or
busy. That it sets no OVR while BUSY either is this model's reading (log 12). -/
def Obligations.ReadOnlyWritesAreIgnored : Prop :=
  ∀ (s : State) (off : Nat) (v : Word) (rest : List Turn), s.inReset = false →
    off % 4 = 0 → (off = 0x04 ∨ (0x14 ≤ off ∧ off ≤ 0x34)) →
    s.schedule = .access ⟨.write v, 32, off⟩ :: rest →
    step s = .next { s with schedule := rest, reply := none }

/-- 10_state.md section 2.3 (R32, R33, R34): in an idle block DATA keeps all of a written word, RXLEN and
TXID bits 15:0 of it; they read back so, with zeros above. -/
def Obligations.OperandRegistersReadBack : Prop :=
  ∀ (s : State) (v : Word) (rest : List Turn), s.inReset = false → s.engine.state = .idle →
    (s.schedule = .access ⟨.write v, 32, 0x08⟩ :: rest →
      step s = .next { s with schedule := rest, reply := none, data := v }) ∧
    (s.schedule = .access ⟨.write v, 32, 0x0C⟩ :: rest →
      step s = .next { s with schedule := rest, reply := none, rxlen := v.extractLsb' 0 16 }) ∧
    (s.schedule = .access ⟨.write v, 32, 0x10⟩ :: rest →
      step s = .next { s with schedule := rest, reply := none, txid := v.extractLsb' 0 16 }) ∧
    (s.schedule = .access ⟨.read, 32, 0x08⟩ :: rest →
      step s = .next { s with schedule := rest, reply := some s.data }) ∧
    (s.schedule = .access ⟨.read, 32, 0x0C⟩ :: rest →
      step s = .next { s with schedule := rest, reply := some (0#16 ++ s.rxlen : BitVec 32) }) ∧
    (s.schedule = .access ⟨.read, 32, 0x10⟩ :: rest →
      step s = .next { s with schedule := rest, reply := some (0#16 ++ s.txid : BitVec 32) })

/-- 10_state.md section 2 (R21) and section 2.4 (R35 to R42): in an idle block each result register reads at
its offset, and the read changes nothing of the block. -/
def Obligations.ResultRegistersRead : Prop :=
  ∀ (s : State) (off : Nat) (v : Word) (rest : List Turn), s.inReset = false →
    s.engine.state = .idle → s.schedule = .access ⟨.read, 32, off⟩ :: rest →
    ((off = 0x14 ∧ v = s.res.idFlags) ∨ (off = 0x18 ∧ v = s.res.qdAn)
      ∨ (off = 0x1C ∧ v = s.res.nsAr) ∨ (off = 0x20 ∧ v = s.res.hflags)
      ∨ (off = 0x24 ∧ v = s.res.typeClass) ∨ (off = 0x28 ∧ v = s.res.ttl)
      ∨ (off = 0x2C ∧ v = s.res.rdlenN) ∨ (off = 0x30 ∧ v = s.res.hwaddrHi)
      ∨ (off = 0x34 ∧ v = s.res.hwaddrLo)) →
    step s = .next { s with schedule := rest, reply := some v }

/-- 10_state.md sections 2.2 and 4 (R28, R49): any dropped write sets OVR and nothing else does; an
acceptance and a reset clear it and nothing else does. That a write to a read-only or reserved offset
while BUSY does not set it is this model's reading (log 12), and so is that the reset line clears it
from the assertion on (log 10). -/
def Obligations.OvrRecordsDroppedWrites : Prop :=
  ∀ s t : State, step s = .next t →
    (DropsNext s → t.status.ovr = true) ∧
    (s.status.ovr = false → t.status.ovr = true → DropsNext s) ∧
    (AcceptsNext s → t.status.ovr = false) ∧
    (∀ rest, s.schedule = .resetLine true :: rest → t.status.ovr = false) ∧
    (s.status.ovr = true → t.status.ovr = false → AcceptsNext s ∨ ResetNext s)

/-- 10_state.md section 2.2 (R26, R27) and section 3 (R44): BUSY is set by an acceptance and cleared by
completion, DONE the other way round, whatever the outcome; otherwise only reset changes them. -/
def Obligations.BusyAndDoneFollowTheCommand : Prop :=
  ∀ s t : State, step s = .next t →
    (AcceptsNext s → t.engine.state = .busy ∧ t.status.done = false) ∧
    (CompletesNext s → t.engine.state = .idle ∧ t.status.done = true) ∧
    (s.engine.state = .idle → t.engine.state = .busy → AcceptsNext s) ∧
    (s.engine.state = .busy → t.engine.state = .idle → CompletesNext s ∨ ResetNext s) ∧
    (s.status.done = true → t.status.done = false → AcceptsNext s ∨ ResetNext s) ∧
    (s.status.done = false → t.status.done = true → CompletesNext s)

/-! ### Reset (70_reset_and_hazards.md) -/

/-- R150 (70_reset_and_hazards.md), whole, and the other values that R149 gives: on reset release, from any
state in which reset is asserted, and in State.reset. The engine's latched values and the model's
own fields are not part of it (log 5, log 6). -/
def Obligations.ReleasedResetValues : Prop :=
  (ResetHeld State.reset ∧ State.reset.inReset = false) ∧
  ∀ (s : State) (rest : List Turn), s.schedule = .resetLine false :: rest → s.inReset = true →
    ∃ t, step s = .next t ∧ ResetHeld t ∧ t.inReset = false ∧ t.statusWord = 0

/-- R148 (70_reset_and_hazards.md), whole: while reset is asserted every host access is a bus error, and
only the reset line starts or ends a reset. -/
def Obligations.ResetLineAndAccesses : Prop :=
  (∀ (s : State) (a : HostAccess) (rest : List Turn),
    s.schedule = .access a :: rest → s.inReset = true → step s = .fault .busErrorInReset) ∧
  (∀ (s : State) (polls : Nat) (rest : List Turn),
    s.schedule = .wait polls :: rest → s.inReset = true → step s = .fault .busErrorInReset) ∧
  (∀ (s : State) (on : Bool) (rest : List Turn), s.schedule = .resetLine on :: rest →
    ∃ t, step s = .next t ∧ t.inReset = on) ∧
  (∀ s t : State, step s = .next t → ¬ ResetNext s → t.inReset = s.inReset ∧ t.epoch = s.epoch)

/-- 70_reset_and_hazards.md section 1 (R149, R151, R152): reset abandons a running command. After the line is
released the block holds the values of R149, and the bytes of the buffers that reset does not clear
are new free values, whatever they held. That they are these free values, and that the reset values
show from the assertion on, is this model's choice (log 3, log 10). -/
def Obligations.ResetAbandonsTheCommand : Prop :=
  ∀ (s : State) (rest : List Turn), s.engine.state = .busy →
    s.schedule = .resetLine true :: .resetLine false :: rest →
    ∃ t u, step s = .next t ∧ ResetHeld t ∧ step t = .next u ∧ ResetHeld u ∧ u.inReset = false ∧
      u.schedule = rest ∧ u.epoch = s.epoch + 1 ∧
      ∀ b i, b = .rx ∨ b = .tx ∨ b = .label ∨ b = .enc →
        u.byte b i = Config.unknownByte (s.epoch + 1) b.code.toNat i

/-! ### Invariants that every step keeps -/

/-- The model's memory form (log 11; 20_memory.md section 1, R52): every step keeps each buffer's list in
its canonical form and inside the buffer. -/
def Obligations.BuffersStayCanonical : Prop :=
  ∀ s t : State, BuffersInv s → step s = .next t → BuffersInv t

/-- The buffers are in canonical form right after reset (log 11). -/
def Obligations.BuffersCanonicalAtReset : Prop := BuffersInv State.reset

/-- 10_state.md sections 2.2 and 3 (R24, R27, R30, R31, R44), 60_exceptions.md section 1 (R135): every step
keeps STATUS legal and in step with the engine. The values of the cursor and the index outside
PARSERESP are this model's choice (log 9). -/
def Obligations.StatusStaysLegal : Prop :=
  ∀ s t : State, StatusInv s → step s = .next t → StatusInv t

/-- STATUS is legal right after reset (70_reset_and_hazards.md section 1, R149; the cursor and the index by
log 5). -/
def Obligations.StatusLegalAtReset : Prop := StatusInv State.reset

/-- 10_state.md sections 2.2 and 2.4 (R29, R38 to R42), 20_memory.md section 1 (R57, R58): every step keeps
RESV telling the truth: either the registers and buffers fit one decoded response, or all are 0. -/
def Obligations.ResultStateStaysConsistent : Prop :=
  ∀ s t : State, ResultInv s → step s = .next t → ResultInv t

/-- The result state is consistent right after reset (70_reset_and_hazards.md section 1, R150). -/
def Obligations.ResultConsistentAtReset : Prop := ResultInv State.reset

/-- 70_reset_and_hazards.md section 1 (R148, R149): a block held in reset keeps the reset values through
every step. -/
def Obligations.ResetValuesAreHeld : Prop :=
  ResetInv State.reset ∧ ∀ s t : State, ResetInv s → step s = .next t → ResetInv t
end

