-- ==== Sys2Proof/Laws/State.lean ====
section
/-! SUPPORT. What each update of State leaves in each field, one lemma per field per update, so that no
later proof unfolds a record update; and the simplest facts about completion and reset. -/

namespace Sys2Proof.Machine

/-! ### The three ends of a command are one operation (R44, R138) -/

theorem State.succeed_eq_complete (s : State) : s.succeed = s.complete .none .none := rfl

theorem State.raise_eq_complete (s : State) (e : ErrorKind) (g : Gate) :
    s.raise e g = s.complete e g := rfl

theorem State.raiseInvalidArgument_eq_complete (s : State) :
    s.raiseInvalidArgument = s.complete .invalidArgument .none := rfl

/-- Completion written as a record: what the statements spell out. -/
theorem State.complete_eq_record (s : State) (e : ErrorKind) (g : Gate) :
    s.complete e g =
      { s with
        engine := { s.engine with state := .idle }
        status := { s.status with done := true, err := e.code, gate := g.number } } := rfl

theorem State.busy_iff (s : State) : s.busy = true ↔ s.engine.state = .busy := by
  simp [State.busy]

theorem EngineState.not_busy_iff (e : EngineState) : e ≠ .busy ↔ e = .idle := by
  cases e <;> simp

/-! ### `complete` (R44) -/

@[simp] theorem State.complete_status_done (s : State) (e : ErrorKind) (g : Gate) :
    (s.complete e g).status.done = true := rfl

@[simp] theorem State.complete_status_ovr (s : State) (e : ErrorKind) (g : Gate) :
    (s.complete e g).status.ovr = s.status.ovr := rfl

@[simp] theorem State.complete_status_resv (s : State) (e : ErrorKind) (g : Gate) :
    (s.complete e g).status.resv = s.status.resv := rfl

@[simp] theorem State.complete_status_err (s : State) (e : ErrorKind) (g : Gate) :
    (s.complete e g).status.err = e.code := rfl

@[simp] theorem State.complete_status_gate (s : State) (e : ErrorKind) (g : Gate) :
    (s.complete e g).status.gate = g.number := rfl

@[simp] theorem State.complete_data (s : State) (e : ErrorKind) (g : Gate) :
    (s.complete e g).data = s.data := rfl

@[simp] theorem State.complete_rxlen (s : State) (e : ErrorKind) (g : Gate) :
    (s.complete e g).rxlen = s.rxlen := rfl

@[simp] theorem State.complete_txid (s : State) (e : ErrorKind) (g : Gate) :
    (s.complete e g).txid = s.txid := rfl

@[simp] theorem State.complete_res (s : State) (e : ErrorKind) (g : Gate) :
    (s.complete e g).res = s.res := rfl

@[simp] theorem State.complete_bufs (s : State) (e : ErrorKind) (g : Gate) :
    (s.complete e g).bufs = s.bufs := rfl

@[simp] theorem State.complete_engine_state (s : State) (e : ErrorKind) (g : Gate) :
    (s.complete e g).engine.state = .idle := rfl

@[simp] theorem State.complete_engine_cw (s : State) (e : ErrorKind) (g : Gate) :
    (s.complete e g).engine.cw = s.engine.cw := rfl

@[simp] theorem State.complete_engine_d (s : State) (e : ErrorKind) (g : Gate) :
    (s.complete e g).engine.d = s.engine.d := rfl

@[simp] theorem State.complete_engine_len (s : State) (e : ErrorKind) (g : Gate) :
    (s.complete e g).engine.len = s.engine.len := rfl

@[simp] theorem State.complete_engine_id (s : State) (e : ErrorKind) (g : Gate) :
    (s.complete e g).engine.id = s.engine.id := rfl

@[simp] theorem State.complete_engine_c (s : State) (e : ErrorKind) (g : Gate) :
    (s.complete e g).engine.c = s.engine.c := rfl

@[simp] theorem State.complete_engine_i (s : State) (e : ErrorKind) (g : Gate) :
    (s.complete e g).engine.i = s.engine.i := rfl

@[simp] theorem State.complete_inReset (s : State) (e : ErrorKind) (g : Gate) :
    (s.complete e g).inReset = s.inReset := rfl

@[simp] theorem State.complete_epoch (s : State) (e : ErrorKind) (g : Gate) :
    (s.complete e g).epoch = s.epoch := rfl

@[simp] theorem State.complete_draws (s : State) (e : ErrorKind) (g : Gate) :
    (s.complete e g).draws = s.draws := rfl

@[simp] theorem State.complete_reply (s : State) (e : ErrorKind) (g : Gate) :
    (s.complete e g).reply = s.reply := rfl

@[simp] theorem State.complete_schedule (s : State) (e : ErrorKind) (g : Gate) :
    (s.complete e g).schedule = s.schedule := rfl

/-! ### `writeBytes` -/

@[simp] theorem State.writeBytes_status (s : State) (b : Buffer) (i : Nat) (vs : List Byte) :
    (s.writeBytes b i vs).status = s.status := rfl

@[simp] theorem State.writeBytes_data (s : State) (b : Buffer) (i : Nat) (vs : List Byte) :
    (s.writeBytes b i vs).data = s.data := rfl

@[simp] theorem State.writeBytes_rxlen (s : State) (b : Buffer) (i : Nat) (vs : List Byte) :
    (s.writeBytes b i vs).rxlen = s.rxlen := rfl

@[simp] theorem State.writeBytes_txid (s : State) (b : Buffer) (i : Nat) (vs : List Byte) :
    (s.writeBytes b i vs).txid = s.txid := rfl

@[simp] theorem State.writeBytes_res (s : State) (b : Buffer) (i : Nat) (vs : List Byte) :
    (s.writeBytes b i vs).res = s.res := rfl

@[simp] theorem State.writeBytes_bufs (s : State) (b : Buffer) (i : Nat) (vs : List Byte) :
    (s.writeBytes b i vs).bufs = s.bufs.set b (Memory.writeBytes (unlistedByte b) (s.bufs.get b) i vs) := rfl

@[simp] theorem State.writeBytes_engine (s : State) (b : Buffer) (i : Nat) (vs : List Byte) :
    (s.writeBytes b i vs).engine = s.engine := rfl

@[simp] theorem State.writeBytes_inReset (s : State) (b : Buffer) (i : Nat) (vs : List Byte) :
    (s.writeBytes b i vs).inReset = s.inReset := rfl

@[simp] theorem State.writeBytes_epoch (s : State) (b : Buffer) (i : Nat) (vs : List Byte) :
    (s.writeBytes b i vs).epoch = s.epoch := rfl

@[simp] theorem State.writeBytes_draws (s : State) (b : Buffer) (i : Nat) (vs : List Byte) :
    (s.writeBytes b i vs).draws = s.draws := rfl

@[simp] theorem State.writeBytes_reply (s : State) (b : Buffer) (i : Nat) (vs : List Byte) :
    (s.writeBytes b i vs).reply = s.reply := rfl

@[simp] theorem State.writeBytes_schedule (s : State) (b : Buffer) (i : Nat) (vs : List Byte) :
    (s.writeBytes b i vs).schedule = s.schedule := rfl

/-! ### `clearResult` (R111) -/

@[simp] theorem State.clearResult_status_done (s : State) :
    (s.clearResult).status.done = s.status.done := rfl

@[simp] theorem State.clearResult_status_ovr (s : State) :
    (s.clearResult).status.ovr = s.status.ovr := rfl

@[simp] theorem State.clearResult_status_resv (s : State) :
    (s.clearResult).status.resv = false := rfl

@[simp] theorem State.clearResult_status_err (s : State) :
    (s.clearResult).status.err = s.status.err := rfl

@[simp] theorem State.clearResult_status_gate (s : State) :
    (s.clearResult).status.gate = s.status.gate := rfl

@[simp] theorem State.clearResult_data (s : State) :
    (s.clearResult).data = s.data := rfl

@[simp] theorem State.clearResult_rxlen (s : State) :
    (s.clearResult).rxlen = s.rxlen := rfl

@[simp] theorem State.clearResult_txid (s : State) :
    (s.clearResult).txid = s.txid := rfl

@[simp] theorem State.clearResult_res (s : State) :
    (s.clearResult).res = Results.cleared := rfl

@[simp] theorem State.clearResult_bufs (s : State) :
    (s.clearResult).bufs = { s.bufs with stats := [], entry := [] } := rfl

@[simp] theorem State.clearResult_engine (s : State) :
    (s.clearResult).engine = s.engine := rfl

@[simp] theorem State.clearResult_inReset (s : State) :
    (s.clearResult).inReset = s.inReset := rfl

@[simp] theorem State.clearResult_epoch (s : State) :
    (s.clearResult).epoch = s.epoch := rfl

@[simp] theorem State.clearResult_draws (s : State) :
    (s.clearResult).draws = s.draws := rfl

@[simp] theorem State.clearResult_reply (s : State) :
    (s.clearResult).reply = s.reply := rfl

@[simp] theorem State.clearResult_schedule (s : State) :
    (s.clearResult).schedule = s.schedule := rfl

/-! ### `accept` (R24) -/

@[simp] theorem State.accept_status_done (s : State) (w : Word) :
    (s.accept w).status.done = false := rfl

@[simp] theorem State.accept_status_ovr (s : State) (w : Word) :
    (s.accept w).status.ovr = false := rfl

@[simp] theorem State.accept_status_resv (s : State) (w : Word) :
    (s.accept w).status.resv = s.status.resv := rfl

@[simp] theorem State.accept_status_err (s : State) (w : Word) :
    (s.accept w).status.err = 0 := rfl

@[simp] theorem State.accept_status_gate (s : State) (w : Word) :
    (s.accept w).status.gate = 0 := rfl

@[simp] theorem State.accept_data (s : State) (w : Word) :
    (s.accept w).data = s.data := rfl

@[simp] theorem State.accept_rxlen (s : State) (w : Word) :
    (s.accept w).rxlen = s.rxlen := rfl

@[simp] theorem State.accept_txid (s : State) (w : Word) :
    (s.accept w).txid = s.txid := rfl

@[simp] theorem State.accept_res (s : State) (w : Word) :
    (s.accept w).res = s.res := rfl

@[simp] theorem State.accept_bufs (s : State) (w : Word) :
    (s.accept w).bufs = s.bufs := rfl

@[simp] theorem State.accept_engine_state (s : State) (w : Word) :
    (s.accept w).engine.state = .busy := rfl

@[simp] theorem State.accept_engine_cw (s : State) (w : Word) :
    (s.accept w).engine.cw = w := rfl

@[simp] theorem State.accept_engine_d (s : State) (w : Word) :
    (s.accept w).engine.d = s.data := rfl

@[simp] theorem State.accept_engine_len (s : State) (w : Word) :
    (s.accept w).engine.len = s.rxlen := rfl

@[simp] theorem State.accept_engine_id (s : State) (w : Word) :
    (s.accept w).engine.id = s.txid := rfl

@[simp] theorem State.accept_engine_c (s : State) (w : Word) :
    (s.accept w).engine.c = s.engine.c := rfl

@[simp] theorem State.accept_engine_i (s : State) (w : Word) :
    (s.accept w).engine.i = s.engine.i := rfl

@[simp] theorem State.accept_inReset (s : State) (w : Word) :
    (s.accept w).inReset = s.inReset := rfl

@[simp] theorem State.accept_epoch (s : State) (w : Word) :
    (s.accept w).epoch = s.epoch := rfl

@[simp] theorem State.accept_draws (s : State) (w : Word) :
    (s.accept w).draws = s.draws := rfl

@[simp] theorem State.accept_reply (s : State) (w : Word) :
    (s.accept w).reply = s.reply := rfl

@[simp] theorem State.accept_schedule (s : State) (w : Word) :
    (s.accept w).schedule = s.schedule := rfl

/-! ### `dropWrite` (R49) -/

@[simp] theorem State.dropWrite_status_done (s : State) :
    (s.dropWrite).status.done = s.status.done := rfl

@[simp] theorem State.dropWrite_status_ovr (s : State) :
    (s.dropWrite).status.ovr = true := rfl

@[simp] theorem State.dropWrite_status_resv (s : State) :
    (s.dropWrite).status.resv = s.status.resv := rfl

@[simp] theorem State.dropWrite_status_err (s : State) :
    (s.dropWrite).status.err = s.status.err := rfl

@[simp] theorem State.dropWrite_status_gate (s : State) :
    (s.dropWrite).status.gate = s.status.gate := rfl

@[simp] theorem State.dropWrite_data (s : State) :
    (s.dropWrite).data = s.data := rfl

@[simp] theorem State.dropWrite_rxlen (s : State) :
    (s.dropWrite).rxlen = s.rxlen := rfl

@[simp] theorem State.dropWrite_txid (s : State) :
    (s.dropWrite).txid = s.txid := rfl

@[simp] theorem State.dropWrite_res (s : State) :
    (s.dropWrite).res = s.res := rfl

@[simp] theorem State.dropWrite_bufs (s : State) :
    (s.dropWrite).bufs = s.bufs := rfl

@[simp] theorem State.dropWrite_engine (s : State) :
    (s.dropWrite).engine = s.engine := rfl

@[simp] theorem State.dropWrite_inReset (s : State) :
    (s.dropWrite).inReset = s.inReset := rfl

@[simp] theorem State.dropWrite_epoch (s : State) :
    (s.dropWrite).epoch = s.epoch := rfl

@[simp] theorem State.dropWrite_draws (s : State) :
    (s.dropWrite).draws = s.draws := rfl

@[simp] theorem State.dropWrite_reply (s : State) :
    (s.dropWrite).reply = s.reply := rfl

@[simp] theorem State.dropWrite_schedule (s : State) :
    (s.dropWrite).schedule = s.schedule := rfl

/-! ### `setCursor` (R44) -/

@[simp] theorem State.setCursor_status (s : State) (c i : Nat) :
    (s.setCursor c i).status = s.status := rfl

@[simp] theorem State.setCursor_data (s : State) (c i : Nat) :
    (s.setCursor c i).data = s.data := rfl

@[simp] theorem State.setCursor_rxlen (s : State) (c i : Nat) :
    (s.setCursor c i).rxlen = s.rxlen := rfl

@[simp] theorem State.setCursor_txid (s : State) (c i : Nat) :
    (s.setCursor c i).txid = s.txid := rfl

@[simp] theorem State.setCursor_res (s : State) (c i : Nat) :
    (s.setCursor c i).res = s.res := rfl

@[simp] theorem State.setCursor_bufs (s : State) (c i : Nat) :
    (s.setCursor c i).bufs = s.bufs := rfl

@[simp] theorem State.setCursor_engine_state (s : State) (c i : Nat) :
    (s.setCursor c i).engine.state = s.engine.state := rfl

@[simp] theorem State.setCursor_engine_cw (s : State) (c i : Nat) :
    (s.setCursor c i).engine.cw = s.engine.cw := rfl

@[simp] theorem State.setCursor_engine_d (s : State) (c i : Nat) :
    (s.setCursor c i).engine.d = s.engine.d := rfl

@[simp] theorem State.setCursor_engine_len (s : State) (c i : Nat) :
    (s.setCursor c i).engine.len = s.engine.len := rfl

@[simp] theorem State.setCursor_engine_id (s : State) (c i : Nat) :
    (s.setCursor c i).engine.id = s.engine.id := rfl

@[simp] theorem State.setCursor_engine_c (s : State) (c i : Nat) :
    (s.setCursor c i).engine.c = c := rfl

@[simp] theorem State.setCursor_engine_i (s : State) (c i : Nat) :
    (s.setCursor c i).engine.i = i := rfl

@[simp] theorem State.setCursor_inReset (s : State) (c i : Nat) :
    (s.setCursor c i).inReset = s.inReset := rfl

@[simp] theorem State.setCursor_epoch (s : State) (c i : Nat) :
    (s.setCursor c i).epoch = s.epoch := rfl

@[simp] theorem State.setCursor_draws (s : State) (c i : Nat) :
    (s.setCursor c i).draws = s.draws := rfl

@[simp] theorem State.setCursor_reply (s : State) (c i : Nat) :
    (s.setCursor c i).reply = s.reply := rfl

@[simp] theorem State.setCursor_schedule (s : State) (c i : Nat) :
    (s.setCursor c i).schedule = s.schedule := rfl

/-! ### `popTurn` -/

@[simp] theorem State.popTurn_status (s : State) :
    (s.popTurn).status = s.status := rfl

@[simp] theorem State.popTurn_data (s : State) :
    (s.popTurn).data = s.data := rfl

@[simp] theorem State.popTurn_rxlen (s : State) :
    (s.popTurn).rxlen = s.rxlen := rfl

@[simp] theorem State.popTurn_txid (s : State) :
    (s.popTurn).txid = s.txid := rfl

@[simp] theorem State.popTurn_res (s : State) :
    (s.popTurn).res = s.res := rfl

@[simp] theorem State.popTurn_bufs (s : State) :
    (s.popTurn).bufs = s.bufs := rfl

@[simp] theorem State.popTurn_engine (s : State) :
    (s.popTurn).engine = s.engine := rfl

@[simp] theorem State.popTurn_inReset (s : State) :
    (s.popTurn).inReset = s.inReset := rfl

@[simp] theorem State.popTurn_epoch (s : State) :
    (s.popTurn).epoch = s.epoch := rfl

@[simp] theorem State.popTurn_draws (s : State) :
    (s.popTurn).draws = s.draws := rfl

@[simp] theorem State.popTurn_reply (s : State) :
    (s.popTurn).reply = s.reply := rfl

@[simp] theorem State.popTurn_schedule (s : State) :
    (s.popTurn).schedule = s.schedule.tail := rfl

/-! ### Reading a byte depends on the buffers and the epoch alone -/

theorem State.byte_congr {s t : State} (hb : t.bufs = s.bufs) (he : t.epoch = s.epoch)
    (b : Buffer) (i : Nat) : t.byte b i = s.byte b i := by
  simp [State.byte, hb, he]

/-- A byte depends on the list of its own buffer alone. -/
theorem State.byte_congr_get {s t : State} {b : Buffer} (hb : t.bufs.get b = s.bufs.get b)
    (he : t.epoch = s.epoch) (i : Nat) : t.byte b i = s.byte b i := by
  simp [State.byte, hb, he]

@[simp] theorem State.byte_complete (s : State) (e : ErrorKind) (g : Gate) (b : Buffer) (i : Nat) :
    (s.complete e g).byte b i = s.byte b i := rfl

@[simp] theorem State.byte_accept (s : State) (w : Word) (b : Buffer) (i : Nat) :
    (s.accept w).byte b i = s.byte b i := rfl

@[simp] theorem State.byte_setCursor (s : State) (c k : Nat) (b : Buffer) (i : Nat) :
    (s.setCursor c k).byte b i = s.byte b i := rfl

@[simp] theorem State.byte_dropWrite (s : State) (b : Buffer) (i : Nat) :
    s.dropWrite.byte b i = s.byte b i := rfl

@[simp] theorem State.byte_popTurn (s : State) (b : Buffer) (i : Nat) :
    s.popTurn.byte b i = s.byte b i := rfl

@[simp] theorem State.byte_clearResult_stats (s : State) (i : Nat) :
    s.clearResult.byte .stats i = 0 := rfl

@[simp] theorem State.byte_clearResult_entry (s : State) (i : Nat) :
    s.clearResult.byte .entry i = 0 := rfl

theorem State.byte_clearResult (s : State) {b : Buffer} (h1 : b ≠ .stats) (h2 : b ≠ .entry)
    (i : Nat) : s.clearResult.byte b i = s.byte b i := by
  cases b <;> simp_all [State.byte, State.clearResult, Buffers.get]

/-- Clearing leaves the result state cleared (R111). -/
theorem State.clearResult_cleared (s : State) : ResultCleared s.clearResult :=
  ⟨rfl, rfl, rfl, rfl, rfl, rfl, rfl, rfl, rfl, fun _ => rfl, fun _ => rfl, rfl⟩

end Sys2Proof.Machine
end

