-- ==== Sys2Proof/Laws/Memory.lean ====
section
/-! SUPPORT. The laws of a buffer's list: read after write, writes elsewhere, and that every write keeps
the canonical form. -/

namespace Sys2Proof.Machine

/-! ### One index -/

@[simp] theorem Memory.lookup_nil (i : Nat) : Memory.lookup [] i = none := rfl

@[simp] theorem Memory.lookup_cons_same (k : Nat) (x : Byte) (m : Memory) :
    Memory.lookup ((k, x) :: m) k = some x := by
  simp [Memory.lookup]

theorem Memory.lookup_cons_ne {k i : Nat} (x : Byte) (m : Memory) (h : i ≠ k) :
    Memory.lookup ((k, x) :: m) i = Memory.lookup m i := by
  simp [Memory.lookup, Ne.symm h]

theorem Memory.lookup_insert_same (m : Memory) (a : Nat) (v : Byte) :
    Memory.lookup (Memory.insert m a v) a = some v := by
  induction m with
  | nil => simp [Memory.insert]
  | cons cell rest ih =>
    obtain ⟨k, x⟩ := cell
    unfold Memory.insert
    split
    · simp
    · split
      · simp
      · rename_i h
        rw [Memory.lookup_cons_ne _ _ h, ih]

theorem Memory.lookup_insert_ne (m : Memory) {a i : Nat} (v : Byte) (h : i ≠ a) :
    Memory.lookup (Memory.insert m a v) i = Memory.lookup m i := by
  induction m with
  | nil => simp [Memory.insert, Memory.lookup_cons_ne _ _ h]
  | cons cell rest ih =>
    obtain ⟨k, x⟩ := cell
    unfold Memory.insert
    split
    · rw [Memory.lookup_cons_ne _ _ h]
    · split
      · rename_i he
        subst he
        rw [Memory.lookup_cons_ne _ _ h, Memory.lookup_cons_ne _ _ h]
      · simp only [Memory.lookup, ih]

theorem Memory.lookup_erase_same (m : Memory) (a : Nat) :
    Memory.lookup (Memory.erase m a) a = none := by
  induction m with
  | nil => rfl
  | cons cell rest ih =>
    obtain ⟨k, x⟩ := cell
    unfold Memory.erase at ih ⊢
    by_cases hk : k = a
    · rw [List.filter_cons_of_neg (by simp [hk]), ih]
    · rw [List.filter_cons_of_pos (by simp [hk]), Memory.lookup_cons_ne _ _ (Ne.symm hk), ih]

theorem Memory.lookup_erase_ne (m : Memory) {a i : Nat} (h : i ≠ a) :
    Memory.lookup (Memory.erase m a) i = Memory.lookup m i := by
  induction m with
  | nil => rfl
  | cons cell rest ih =>
    obtain ⟨k, x⟩ := cell
    unfold Memory.erase at ih ⊢
    by_cases hk : k = a
    · subst hk
      rw [List.filter_cons_of_neg (by simp), Memory.lookup_cons_ne _ _ h, ih]
    · rw [List.filter_cons_of_pos (by simp [hk])]
      simp only [Memory.lookup, ih]

/-- What an index holds: the listed byte, or what an unlisted one reads as. -/
def Memory.value (u : Option Byte) (m : Memory) (i : Nat) : Option Byte :=
  (Memory.lookup m i).or u

theorem Memory.value_write (u : Option Byte) (m : Memory) (a : Nat) (v : Byte) (i : Nat) :
    Memory.value u (Memory.write u m a v) i = if i = a then some v else Memory.value u m i := by
  by_cases hi : i = a
  · subst hi
    by_cases hu : u = some v
    · simp [Memory.value, Memory.write, hu, Memory.lookup_erase_same]
    · simp [Memory.value, Memory.write, hu, Memory.lookup_insert_same]
  · by_cases hu : u = some v
    · simp [Memory.value, Memory.write, hu, Memory.lookup_erase_ne _ hi, hi]
    · simp [Memory.value, Memory.write, hu, Memory.lookup_insert_ne _ _ hi, hi]

/-! ### Many indices -/

/-- Everything a write of bytes does to a buffer's values: read after write, and nothing elsewhere. -/
theorem Memory.value_writeBytes (u : Option Byte) (m : Memory) (a : Nat) (vs : List Byte) (i : Nat) :
    Memory.value u (Memory.writeBytes u m a vs) i =
      if a ≤ i ∧ i < a + vs.length then some (vs.getD (i - a) 0) else Memory.value u m i := by
  induction vs generalizing m a with
  | nil =>
    have : ¬ (a ≤ i ∧ i < a + ([] : List Byte).length) := by simp
    rw [if_neg this, Memory.writeBytes]
  | cons v rest ih =>
    rw [Memory.writeBytes, ih, Memory.value_write]
    rcases Nat.lt_trichotomy i a with h | h | h
    · have h1 : ¬ (a + 1 ≤ i ∧ i < a + 1 + rest.length) := by omega
      have h2 : ¬ (a ≤ i ∧ i < a + (v :: rest).length) := by omega
      have h3 : ¬ i = a := by omega
      simp only [h1, h2, h3, if_false]
    · subst h
      simp
    · obtain ⟨j, rfl⟩ : ∃ j, i = a + 1 + j := ⟨i - (a + 1), by omega⟩
      have e : a + 1 + j - a = j + 1 := by omega
      by_cases hj : j < rest.length
      · have h1 : a + 1 ≤ a + 1 + j ∧ a + 1 + j < a + 1 + rest.length := by omega
        have h2 : a ≤ a + 1 + j ∧ a + 1 + j < a + (v :: rest).length := by
          simp only [List.length_cons]; omega
        rw [if_pos h1, if_pos h2, e, List.getD_cons_succ, show a + 1 + j - (a + 1) = j by omega]
      · have h1 : ¬ (a + 1 ≤ a + 1 + j ∧ a + 1 + j < a + 1 + rest.length) := by omega
        have h2 : ¬ (a ≤ a + 1 + j ∧ a + 1 + j < a + (v :: rest).length) := by
          simp only [List.length_cons]; omega
        have h3 : ¬ (a + 1 + j = a) := by omega
        simp only [h1, h2, h3, if_false]

/-! ### The canonical form -/

/-- The rising order and the entry test of `Memory.wf`, for the two ways a write changes a list. -/
theorem Memory.rising_cons {k : Nat} {x : Byte} {m : Memory} :
    Memory.rising ((k, x) :: m) = true ↔ (∀ cell ∈ m, k < cell.1) ∧ Memory.rising m = true := by
  simp [Memory.rising]

theorem Memory.mem_insert {m : Memory} {a : Nat} {v : Byte} {cell : Host.Cell}
    (h : cell ∈ Memory.insert m a v) : cell = (a, v) ∨ cell ∈ m := by
  induction m with
  | nil => simpa [Memory.insert] using h
  | cons c rest ih =>
    obtain ⟨k, x⟩ := c
    simp only [Memory.insert] at h
    split at h
    · simpa using h
    · split at h
      · rcases List.mem_cons.1 h with h | h
        · exact .inl h
        · exact .inr (List.mem_cons_of_mem _ h)
      · rcases List.mem_cons.1 h with h | h
        · exact .inr (h ▸ List.mem_cons_self)
        · exact (ih h).imp id (List.mem_cons_of_mem _)

theorem Memory.rising_insert {m : Memory} (a : Nat) (v : Byte) (h : Memory.rising m = true) :
    Memory.rising (Memory.insert m a v) = true := by
  induction m with
  | nil => simp [Memory.insert, Memory.rising]
  | cons c rest ih =>
    obtain ⟨k, x⟩ := c
    have ⟨hk, hr⟩ := Memory.rising_cons.1 h
    simp only [Memory.insert]
    split
    · rename_i hlt
      refine Memory.rising_cons.2 ⟨fun cell hc => ?_, h⟩
      rcases List.mem_cons.1 hc with rfl | hc
      · exact hlt
      · exact Nat.lt_trans hlt (hk cell hc)
    · split
      · rename_i he
        exact Memory.rising_cons.2 ⟨he ▸ hk, hr⟩
      · refine Memory.rising_cons.2 ⟨fun cell hc => ?_, ih hr⟩
        rcases Memory.mem_insert hc with rfl | hc
        · show k < a
          omega
        · exact hk cell hc

theorem Memory.rising_erase {m : Memory} (a : Nat) (h : Memory.rising m = true) :
    Memory.rising (Memory.erase m a) = true := by
  induction m with
  | nil => simp [Memory.erase, Memory.rising]
  | cons c rest ih =>
    obtain ⟨k, x⟩ := c
    have ⟨hk, hr⟩ := Memory.rising_cons.1 h
    simp only [Memory.erase, List.filter] at ih ⊢
    split
    · exact Memory.rising_cons.2
        ⟨fun cell hc => hk cell (List.mem_filter.1 hc).1, ih hr⟩
    · exact ih hr

theorem Memory.wf_iff {b : Buffer} {m : Memory} :
    Memory.wf b m = true ↔ Memory.rising m = true
      ∧ ∀ cell ∈ m, cell.1 < bufferSize b ∧ unlistedByte b ≠ some cell.2 := by
  simp [Memory.wf]

theorem Memory.wf_nil (b : Buffer) : Memory.wf b [] = true := rfl

/-- Writing one byte inside the buffer keeps the canonical form. -/
theorem Memory.wf_write {b : Buffer} {m : Memory} {a : Nat} (v : Byte)
    (h : Memory.wf b m = true) (ha : a < bufferSize b) :
    Memory.wf b (Memory.write (unlistedByte b) m a v) = true := by
  have ⟨hr, hm⟩ := Memory.wf_iff.1 h
  by_cases hu : unlistedByte b = some v
  · refine Memory.wf_iff.2 ⟨?_, fun cell hc => ?_⟩
    · simpa [Memory.write, hu] using Memory.rising_erase a hr
    · rw [Memory.write, if_pos hu] at hc
      exact hm cell (List.mem_filter.1 hc).1
  · refine Memory.wf_iff.2 ⟨?_, fun cell hc => ?_⟩
    · simpa [Memory.write, hu] using Memory.rising_insert a v hr
    · rw [Memory.write, if_neg hu] at hc
      rcases Memory.mem_insert hc with rfl | hc
      · exact ⟨ha, hu⟩
      · exact hm cell hc

/-- Writing bytes inside the buffer keeps the canonical form. -/
theorem Memory.wf_writeBytes {b : Buffer} {m : Memory} {a : Nat} (vs : List Byte)
    (h : Memory.wf b m = true) (ha : a + vs.length ≤ bufferSize b) :
    Memory.wf b (Memory.writeBytes (unlistedByte b) m a vs) = true := by
  induction vs generalizing m a with
  | nil => exact h
  | cons v rest ih =>
    simp only [List.length_cons] at ha
    exact ih (Memory.wf_write v h (by omega)) (by omega)

/-! ### The six buffers -/

@[simp] theorem Buffers.get_set_same (bs : Buffers) (b : Buffer) (m : Memory) :
    (bs.set b m).get b = m := by
  cases b <;> rfl

theorem Buffers.get_set_ne (bs : Buffers) {b b' : Buffer} (m : Memory) (h : b' ≠ b) :
    (bs.set b m).get b' = bs.get b' := by
  cases b <;> cases b' <;> first | rfl | exact absurd rfl h

theorem Buffers.wf_iff (bs : Buffers) :
    bs.wf = true ↔ ∀ b, Memory.wf b (bs.get b) = true := by
  constructor
  · intro h b
    simp only [Buffers.wf, Bool.and_eq_true] at h
    cases b <;> simp only [Buffers.get] <;> tauto
  · intro h
    simp only [Buffers.wf, Bool.and_eq_true]
    exact ⟨⟨⟨⟨⟨h .rx, h .tx⟩, h .label⟩, h .enc⟩, h .stats⟩, h .entry⟩

theorem Buffers.wf_set {bs : Buffers} {b : Buffer} {m : Memory} (h : bs.wf = true)
    (hm : Memory.wf b m = true) : (bs.set b m).wf = true := by
  rw [Buffers.wf_iff] at h ⊢
  intro b'
  by_cases hb : b' = b
  · subst hb; simpa using hm
  · rw [Buffers.get_set_ne _ _ hb]; exact h b'

/-- A write of bytes inside its buffer keeps every buffer's canonical form. -/
theorem State.wf_writeBytes {s : State} {b : Buffer} {i : Nat} (vs : List Byte)
    (h : s.bufs.wf = true) (hi : i + vs.length ≤ bufferSize b) :
    (s.writeBytes b i vs).bufs.wf = true :=
  Buffers.wf_set h (Memory.wf_writeBytes vs ((Buffers.wf_iff _).1 h b) hi)

/-- Clearing the result state keeps every buffer's canonical form. -/
theorem State.wf_clearResult {s : State} (h : s.bufs.wf = true) :
    s.clearResult.bufs.wf = true := by
  rw [Buffers.wf_iff] at h ⊢
  intro b
  cases b <;> first | exact h _ | rfl

/-- The buffers right after reset have the canonical form. -/
theorem State.reset_bufs_wf : State.reset.bufs.wf = true := rfl

end Sys2Proof.Machine
end

