-- ==== Sys2Proof/Laws/Bytes.lean ====
section
/-! SUPPORT. Reading bytes after writing bytes, at the level of State: the one lemma about `writeBytes`
that every proof about a storing command cites. -/

namespace Sys2Proof.Machine

/-- A byte through `Memory.value`. -/
theorem State.byte_eq_value (s : State) (b : Buffer) (i : Nat) :
    s.byte b i = (Memory.value (unlistedByte b) (s.bufs.get b) i).getD
      (Config.unknownByte s.epoch b.code.toNat i) := by
  unfold State.byte Memory.value
  cases Memory.lookup (s.bufs.get b) i with
  | some v => rfl
  | none => cases unlistedByte b <;> rfl

/-- Everything a write of bytes does: the written bytes read back, every other byte of every buffer
reads as before. -/
theorem State.byte_writeBytes (s : State) (b : Buffer) (a : Nat) (vs : List Byte) (b' : Buffer)
    (i : Nat) :
    (s.writeBytes b a vs).byte b' i =
      if b' = b ∧ a ≤ i ∧ i < a + vs.length then vs.getD (i - a) 0 else s.byte b' i := by
  by_cases hb : b' = b
  · subst hb
    rw [State.byte_eq_value, State.byte_eq_value, State.writeBytes_bufs, State.writeBytes_epoch,
      Buffers.get_set_same, Memory.value_writeBytes]
    by_cases hi : a ≤ i ∧ i < a + vs.length
    · simp [hi]
    · simp only [hi, and_false, if_false]
  · simp only [hb, false_and, if_false]
    exact State.byte_congr_get (t := s.writeBytes b a vs) (Buffers.get_set_ne _ _ hb) rfl i

theorem State.byte_writeBytes_inside (s : State) (b : Buffer) (a : Nat) (vs : List Byte) {k : Nat}
    (hk : k < vs.length) : (s.writeBytes b a vs).byte b (a + k) = vs.getD k 0 := by
  rw [State.byte_writeBytes, if_pos ⟨rfl, by omega, by omega⟩]
  congr 1
  omega

theorem State.byte_writeBytes_outside (s : State) (b : Buffer) (a : Nat) (vs : List Byte)
    {b' : Buffer} {i : Nat} (h : ¬ (b' = b ∧ a ≤ i ∧ i < a + vs.length)) :
    (s.writeBytes b a vs).byte b' i = s.byte b' i := by
  rw [State.byte_writeBytes, if_neg h]

/-- The frame of a write of bytes. -/
theorem State.writeBytes_frame (s : State) (b : Buffer) (a : Nat) (vs : List Byte) :
    BytesKeptOutside s (s.writeBytes b a vs) b a vs.length :=
  fun _ _ h => State.byte_writeBytes_outside s b a vs h

/-! ### Sequences of bytes -/

@[simp] theorem State.bytes_length (s : State) (b : Buffer) (i n : Nat) :
    (s.bytes b i n).length = n := by
  induction n generalizing i with
  | zero => rfl
  | succ n ih => simp [State.bytes, ih]

theorem State.bytes_getD (s : State) (b : Buffer) (i n : Nat) {k : Nat} (hk : k < n) :
    (s.bytes b i n).getD k 0 = s.byte b (i + k) := by
  induction n generalizing i k with
  | zero => omega
  | succ n ih =>
    cases k with
    | zero => rfl
    | succ k =>
      rw [State.bytes, List.getD_cons_succ, ih (i + 1) (by omega)]
      congr 1
      omega

/-- A sequence of bytes depends on those bytes alone. -/
theorem State.bytes_congr {s t : State} {b : Buffer} {i n : Nat}
    (h : ∀ k, i ≤ k → k < i + n → t.byte b k = s.byte b k) : t.bytes b i n = s.bytes b i n := by
  induction n generalizing i with
  | zero => rfl
  | succ n ih =>
    simp only [State.bytes]
    rw [h i (by omega) (by omega), ih fun k h1 h2 => h k (by omega) (by omega)]

theorem State.read16_congr {s t : State} {b : Buffer} {i : Nat}
    (h : ∀ k, i ≤ k → k < i + 2 → t.byte b k = s.byte b k) : t.read16 b i = s.read16 b i := by
  simp only [State.read16]
  rw [h i (by omega) (by omega), h (i + 1) (by omega) (by omega)]

theorem State.read32_congr {s t : State} {b : Buffer} {i : Nat}
    (h : ∀ k, i ≤ k → k < i + 4 → t.byte b k = s.byte b k) : t.read32 b i = s.read32 b i := by
  simp only [State.read32]
  rw [h i (by omega) (by omega), h (i + 1) (by omega) (by omega), h (i + 2) (by omega) (by omega),
    h (i + 3) (by omega) (by omega)]

/-! ### Big-endian bytes (R13) -/

/-- Splitting a 16-bit value and putting it together again. -/
theorem bytesOf16_append (v : Half) :
    (v.extractLsb' 8 8 ++ v.extractLsb' 0 8 : BitVec 16) = v := by
  apply BitVec.eq_of_getLsbD_eq
  intro i hi
  simp only [BitVec.getLsbD_append, BitVec.getLsbD_extractLsb']
  by_cases h : i < 8
  · simp [h]
  · have : i - 8 < 8 := by omega
    simp [h, this, show 8 + (i - 8) = i by omega]

/-- Splitting a 32-bit value and putting it together again. -/
theorem bytesOf32_append (v : Word) :
    (v.extractLsb' 24 8 ++ v.extractLsb' 16 8 ++ v.extractLsb' 8 8 ++ v.extractLsb' 0 8
      : BitVec 32) = v := by
  apply BitVec.eq_of_getLsbD_eq
  intro i hi
  simp only [BitVec.getLsbD_append, BitVec.getLsbD_extractLsb']
  by_cases h : i < 8
  · simp [h]
  · by_cases h2 : i < 16
    · simp [h, show i - 8 < 8 by omega, show 8 + (i - 8) = i by omega]
    · by_cases h3 : i < 24
      · simp [h, show ¬ i - 8 < 8 by omega, show i - 8 - 8 < 8 by omega,
          show 16 + (i - 8 - 8) = i by omega]
      · simp [h, show ¬ i - 8 < 8 by omega, show ¬ i - 8 - 8 < 8 by omega,
          show i - 8 - 8 - 8 < 8 by omega, show 24 + (i - 8 - 8 - 8) = i by omega]

/-- MemWrite then MemRead of two bytes (R92 law 1). -/
theorem State.read16_writeBytes (s : State) (b : Buffer) (a : Nat) (v : Half) :
    (s.writeBytes b a (bytesOf16 v)).read16 b a = v := by
  have h0 := State.byte_writeBytes_inside s b a (bytesOf16 v) (k := 0) (by simp [bytesOf16])
  have h1 := State.byte_writeBytes_inside s b a (bytesOf16 v) (k := 1) (by simp [bytesOf16])
  simp only [Nat.add_zero] at h0
  rw [State.read16, h0, h1]
  exact bytesOf16_append v

/-- MemWrite then MemRead of four bytes (R92 law 1). -/
theorem State.read32_writeBytes (s : State) (b : Buffer) (a : Nat) (v : Word) :
    (s.writeBytes b a (bytesOf32 v)).read32 b a = v := by
  have h0 := State.byte_writeBytes_inside s b a (bytesOf32 v) (k := 0) (by simp [bytesOf32])
  have h1 := State.byte_writeBytes_inside s b a (bytesOf32 v) (k := 1) (by simp [bytesOf32])
  have h2 := State.byte_writeBytes_inside s b a (bytesOf32 v) (k := 2) (by simp [bytesOf32])
  have h3 := State.byte_writeBytes_inside s b a (bytesOf32 v) (k := 3) (by simp [bytesOf32])
  simp only [Nat.add_zero] at h0
  rw [State.read32, h0, h1, h2, h3]
  exact bytesOf32_append v

end Sys2Proof.Machine
end

