-- ==== Sys2Proof/Laws/Codec.lean ====
section
/-! SUPPORT. What the codec's shared operations can do: the check, the read and the write. -/

namespace Sys2Proof.Machine

/-! ### The check (R85) -/

theorem codecCheck_read {b : Buffer} {off n : Nat} (h : off + n ≤ bufferSize b) :
    codecCheck .read (.buffer b) off n = some b := by
  simp [codecCheck, h]

theorem codecCheck_write {b : Buffer} {off n : Nat} (h1 : b ≠ .stats) (h2 : b ≠ .entry)
    (h : off + n ≤ bufferSize b) : codecCheck .write (.buffer b) off n = some b := by
  cases b <;> simp_all [codecCheck, bufferReadOnly]

@[simp] theorem codecCheck_reserved6 (dir : Direction) (off n : Nat) :
    codecCheck dir .reserved6 off n = none := rfl

@[simp] theorem codecCheck_reserved7 (dir : Direction) (off n : Nat) :
    codecCheck dir .reserved7 off n = none := rfl

theorem codecCheck_out_of_bounds (dir : Direction) {b : Buffer} {off n : Nat}
    (h : bufferSize b < off + n) : codecCheck dir (.buffer b) off n = none := by
  have h' : ¬ off + n ≤ bufferSize b := by omega
  simp [codecCheck, h']

theorem codecCheck_write_stats (off n : Nat) :
    codecCheck .write (.buffer .stats) off n = none := by
  simp [codecCheck, bufferReadOnly]

theorem codecCheck_write_entry (off n : Nat) :
    codecCheck .write (.buffer .entry) off n = none := by
  simp [codecCheck, bufferReadOnly]

/-- An access that passes stays inside its buffer, and a write never names STATS or ENTRY. -/
theorem codecCheck_passes {dir : Direction} {sel : BufSel} {off n : Nat} {b : Buffer}
    (h : codecCheck dir sel off n = some b) :
    sel = .buffer b ∧ off + n ≤ bufferSize b ∧ (dir = .write → b ≠ .stats ∧ b ≠ .entry) := by
  cases sel with
  | reserved6 => simp at h
  | reserved7 => simp at h
  | buffer b' =>
    simp only [codecCheck] at h
    split at h
    · simp at h
    · rename_i hro
      split at h
      · rename_i hb
        obtain rfl : b' = b := by simpa using h
        refine ⟨rfl, hb, fun hd => ?_⟩
        cases b' <;> simp_all [bufferReadOnly]
      · simp at h

/-! ### Widths -/

@[simp] theorem valueBytes_length (v : Word) (n : Width) : (valueBytes v n).length = n.count := by
  cases n <;> rfl

/-! ### The read and the write: each either completes with its effect or changes nothing -/

/-- Everything a codec read can do. -/
theorem codecRead_cases (n : Width) (sel : BufSel) (off : Nat) (s : State) :
    (∃ b, codecCheck .read sel off n.count = some b ∧
      codecRead n sel off s = ({ s with data := s.readValue b off n } : State).complete .none .none) ∨
    (codecCheck .read sel off n.count = none ∧
      codecRead n sel off s = s.complete .invalidArgument .none) := by
  unfold codecRead
  cases codecCheck .read sel off n.count with
  | some b => exact .inl ⟨b, rfl, rfl⟩
  | none => exact .inr ⟨rfl, rfl⟩

/-- Everything a codec write can do. -/
theorem codecWrite_cases (n : Width) (sel : BufSel) (off : Nat) (s : State) :
    (∃ b, codecCheck .write sel off n.count = some b ∧
      codecWrite n sel off s
        = (s.writeBytes b off (valueBytes s.engine.d n)).complete .none .none) ∨
    (codecCheck .write sel off n.count = none ∧
      codecWrite n sel off s = s.complete .invalidArgument .none) := by
  unfold codecWrite
  cases codecCheck .write sel off n.count with
  | some b => exact .inl ⟨b, rfl, rfl⟩
  | none => exact .inr ⟨rfl, rfl⟩

/-- The value a read loads depends on the bytes it reads alone. -/
theorem State.readValue_congr {s t : State} {b : Buffer} {off : Nat} (n : Width)
    (h : ∀ k, off ≤ k → k < off + n.count → t.byte b k = s.byte b k) :
    t.readValue b off n = s.readValue b off n := by
  cases n with
  | one => simp only [State.readValue]; rw [h off (by simp) (by simp [Width.count])]
  | two => simp only [State.readValue]; rw [State.read16_congr h]
  | four => simp only [State.readValue]; rw [State.read32_congr h]

end Sys2Proof.Machine
end

