-- ==== Sys2Proof/Laws/Decode.lean ====
section
/-! SUPPORT. The fields of an assembled command word, and a word from its fields (spec 30_encoding.md R70). -/

namespace Sys2Proof

theorem BufSel.ofCode_code (sel : BufSel) : BufSel.ofCode sel.code = sel := by
  cases sel with
  | buffer b => cases b <;> rfl
  | reserved6 => rfl
  | reserved7 => rfl

theorem BufSel.code_ofCode (c : BitVec 3) : (BufSel.ofCode c).code = c := by
  revert c
  decide

/-- Bit `i` of an assembled word. -/
theorem getLsbD_assemble (op : BitVec 4) (buf : BitVec 3) (off i : Nat) (hi : i < 32) :
    (assemble op buf off).getLsbD i =
      (op.getLsbD i || (decide (4 ≤ i) && buf.getLsbD (i - 4))
        || (decide (8 ≤ i) && off.testBit (i - 8))) := by
  simp only [assemble, BitVec.getLsbD_or, BitVec.getLsbD_shiftLeft, BitVec.getLsbD_setWidth,
    BitVec.getLsbD_ofNat]
  by_cases h4 : i < 4
  · simp [hi, h4, show i < 8 by omega, show ¬ 4 ≤ i by omega, show ¬ 8 ≤ i by omega]
  · by_cases h8 : i < 8
    · simp [hi, h4, h8, show 4 ≤ i by omega, show ¬ 8 ≤ i by omega, show i - 4 < 32 by omega]
    · simp [hi, h4, h8, show 4 ≤ i by omega, show 8 ≤ i by omega, show i - 4 < 32 by omega,
        show i - 8 < 32 by omega]

theorem fieldOp_assemble (op : BitVec 4) (buf : BitVec 3) (off : Nat) :
    fieldOp (assemble op buf off) = op := by
  apply BitVec.eq_of_getLsbD_eq
  intro i hi
  rw [fieldOp, BitVec.getLsbD_extractLsb', getLsbD_assemble _ _ _ _ (by omega)]
  simp [hi, show ¬ 4 ≤ i by omega, show ¬ 8 ≤ i by omega]

theorem fieldBuf_assemble (op : BitVec 4) (buf : BitVec 3) (off : Nat) :
    fieldBuf (assemble op buf off) = buf := by
  apply BitVec.eq_of_getLsbD_eq
  intro i hi
  rw [fieldBuf, BitVec.getLsbD_extractLsb', getLsbD_assemble _ _ _ _ (by omega)]
  simp [hi, show ¬ 8 ≤ 4 + i by omega, BitVec.getLsbD_of_ge]

theorem fieldRsv7_assemble (op : BitVec 4) (buf : BitVec 3) (off : Nat) :
    fieldRsv7 (assemble op buf off) = 0 := by
  apply BitVec.eq_of_getLsbD_eq
  intro i hi
  obtain rfl : i = 0 := by omega
  rw [fieldRsv7, BitVec.getLsbD_extractLsb', getLsbD_assemble _ _ _ _ (by omega)]
  simp [BitVec.getLsbD_of_ge]

theorem fieldOffset_assemble (op : BitVec 4) (buf : BitVec 3) {off : Nat} (h : off < 1024) :
    (fieldOffset (assemble op buf off)).toNat = off := by
  have e : fieldOffset (assemble op buf off) = BitVec.ofNat 10 off := by
    apply BitVec.eq_of_getLsbD_eq
    intro i hi
    rw [fieldOffset, BitVec.getLsbD_extractLsb', getLsbD_assemble _ _ _ _ (by omega),
      BitVec.getLsbD_ofNat]
    simp [hi, BitVec.getLsbD_of_ge, show 4 ≤ 8 + i by omega, show 3 ≤ 8 + i - 4 by omega]
  rw [e, BitVec.toNat_ofNat]
  exact Nat.mod_eq_of_lt h

theorem fieldRsv18_assemble (op : BitVec 4) (buf : BitVec 3) {off : Nat} (h : off < 1024) :
    fieldRsv18 (assemble op buf off) = 0 := by
  apply BitVec.eq_of_getLsbD_eq
  intro i hi
  have ho : off.testBit (18 + i - 8) = false :=
    Nat.testBit_lt_two_pow
      (Nat.lt_of_lt_of_le h (Nat.pow_le_pow_right (n := 2) (by omega) (by omega : 10 ≤ 18 + i - 8)))
  rw [fieldRsv18, BitVec.getLsbD_extractLsb', getLsbD_assemble _ _ _ _ (by omega)]
  simp [hi, ho, BitVec.getLsbD_of_ge, show 4 ≤ 18 + i by omega, show 3 ≤ 18 + i - 4 by omega]

/-- A word whose reserved bits are 0 is assembled from its fields. -/
theorem assemble_fields (w : Word) (h18 : fieldRsv18 w = 0) (h7 : fieldRsv7 w = 0) :
    assemble (fieldOp w) (fieldBuf w) (fieldOffset w).toNat = w := by
  have high : ∀ j, j < 14 → w.getLsbD (18 + j) = false := fun j hj => by
    simpa [fieldRsv18, hj] using congrArg (fun x : BitVec 14 => x.getLsbD j) h18
  have bit7 : w.getLsbD 7 = false := by
    simpa [fieldRsv7] using congrArg (fun x : BitVec 1 => x.getLsbD 0) h7
  apply BitVec.eq_of_getLsbD_eq
  intro i hi
  rw [getLsbD_assemble _ _ _ _ hi, BitVec.testBit_toNat]
  simp only [fieldOp, fieldBuf, fieldOffset, BitVec.getLsbD_extractLsb']
  by_cases h4 : i < 4
  · simp [h4, show ¬ 4 ≤ i by omega, show ¬ 8 ≤ i by omega]
  · by_cases h7' : i < 7
    · simp [h4, show 4 ≤ i by omega, show ¬ 8 ≤ i by omega, show i - 4 < 3 by omega,
        show 4 + (i - 4) = i by omega]
    · by_cases h8 : i = 7
      · subst h8
        simpa using bit7
      · by_cases h18' : i < 18
        · simp [h4, show 8 ≤ i by omega, show ¬ i - 4 < 3 by omega, show i - 8 < 10 by omega,
            show 8 + (i - 8) = i by omega]
        · have := high (i - 18) (by omega)
          rw [show 18 + (i - 18) = i by omega] at this
          simp [this, h4, show ¬ i - 4 < 3 by omega, show ¬ i - 8 < 10 by omega]

end Sys2Proof
end

