-- ==== Sys2Proof/Laws/Parser.lean ====
section
/-! SUPPORT. What the parser's operations can do: the entry loop, the three ends of a parse that can
happen with the parameters of spec 00_scope.md R8 (43_response_parser.md R129), the records, and the
commit. -/

namespace Sys2Proof.Machine

/-! ### The constants of R8 and R9, as numbers -/

theorem Config_respLen (n : Nat) : Config.respLen n = 101 + 18 * n := by
  simp only [Config.respLen, Config.entriesOff, Config.hdrLen, Config.rrNameLen, Config.rrFixedLen,
    Config.entryLen, Config.statsLen]
  omega

/-! ### The entry loop (R118, R119) -/

/-- The entries of the loop in wire order: entry j at 18j past the cursor. -/
def entriesFrom (s : State) (c : Nat) : Nat → List Entry
  | 0 => []
  | k + 1 => entryAt s c :: entriesFrom s (c + 18) k

@[simp] theorem entriesFrom_length (s : State) (c k : Nat) : (entriesFrom s c k).length = k := by
  induction k generalizing c with
  | zero => rfl
  | succ k ih => simp [entriesFrom, ih]

theorem entriesFrom_getElem? (s : State) (c : Nat) {k j : Nat} (h : j < k) :
    (entriesFrom s c k)[j]? = some (entryAt s (c + 18 * j)) := by
  induction k generalizing c j with
  | zero => omega
  | succ k ih =>
    cases j with
    | zero => rfl
    | succ j =>
      rw [entriesFrom, List.getElem?_cons_succ, ih (c + 18) (by omega)]
      congr 2
      omega

/-- The whole loop while ENTRY has room: it takes every entry, in order. -/
theorem takeEntries_fits (s : State) {k i : Nat} (c : Nat) (h : i + k ≤ 26) :
    takeEntries s k i c = .taken (entriesFrom s c k) (c + 18 * k) (i + k) := by
  induction k generalizing i c with
  | zero => rfl
  | succ k ih =>
    have hi : ¬ Config.entryCap ≤ i := by simp only [Config.entryCap]; omega
    rw [takeEntries, if_neg hi, ih _ (by omega)]
    simp only [Config.entryLen, entriesFrom]
    congr 1 <;> omega

/-! ### The parse (R110, R129): each way it can end -/

theorem parseResponse_oversize (s : State) {L : Nat} (h : 576 < L) :
    parseResponse s L = .raised .protocolViolation .sizeCeiling 0 0 := by
  simp [parseResponse, Config.rxCap, h]

theorem parseResponse_wrongType (s : State) {L : Nat} (h : L ≤ 576)
    (ht : s.read16 .rx 44 ≠ 0x0021#16) :
    parseResponse s L = .raised .protocolViolation .typeDiscriminator 54 0 := by
  have h' : ¬ Config.rxCap < L := by simp only [Config.rxCap]; omega
  have ht' : (parseHead s (Config.hdrLen + Config.rrNameLen)).ty ≠ Config.typeNbstat := ht
  rw [parseResponse, if_neg h']
  dsimp only
  rw [if_pos ht']
  rfl

theorem parseResponse_wrongLength (s : State) {L : Nat} (h : L ≤ 576)
    (ht : s.read16 .rx 44 = 0x0021#16) (hl : L ≠ 101 + 18 * (s.byte .rx 54).toNat) :
    parseResponse s L = .raised .protocolViolation .lengthCheck 55 0 := by
  have h' : ¬ Config.rxCap < L := by simp only [Config.rxCap]; omega
  have ht' : ¬ (parseHead s (Config.hdrLen + Config.rrNameLen)).ty ≠ Config.typeNbstat :=
    fun hne => hne ht
  have hn : (parseHead s (Config.hdrLen + Config.rrNameLen)).n = s.byte .rx 54 := rfl
  rw [parseResponse, if_neg h']
  dsimp only
  rw [if_neg ht', if_pos]
  · rfl
  · rw [hn]
    simp only [Config.hdrLen, Config.rrNameLen, Config.rrFixedLen, Config.entryLen,
      Config.statsLen]
    omega

/-- What a successful parse stages. -/
def parsedOf (s : State) : Parsed :=
  { parseHead s 44 with
    entries := entriesFrom s 55 (s.byte .rx 54).toNat
    st := s.bytes .rx (55 + 18 * (s.byte .rx 54).toNat) 46 }

theorem parseResponse_ok (s : State) {L : Nat} (h : L ≤ 576)
    (ht : s.read16 .rx 44 = 0x0021#16) (hl : L = 101 + 18 * (s.byte .rx 54).toNat) :
    parseResponse s L = .parsed (parsedOf s) L (s.byte .rx 54).toNat := by
  have h' : ¬ Config.rxCap < L := by simp only [Config.rxCap]; omega
  have ht' : ¬ (parseHead s (Config.hdrLen + Config.rrNameLen)).ty ≠ Config.typeNbstat :=
    fun hne => hne ht
  have hn : (parseHead s (Config.hdrLen + Config.rrNameLen)).n = s.byte .rx 54 := rfl
  rw [parseResponse, if_neg h']
  dsimp only
  rw [if_neg ht', if_neg]
  · have hc : Config.hdrLen + Config.rrNameLen + Config.rrFixedLen + 1 = 55 := rfl
    have hs : Config.statsLen = 46 := rfl
    rw [parseBody, hn, hc, takeEntries_fits s 55 (by omega)]
    simp only [hs, Nat.zero_add]
    rw [if_neg (by omega), show 55 + 18 * (s.byte .rx 54).toNat + 46 = L by omega]
    rfl
  · rw [hn]
    simp only [Config.hdrLen, Config.rrNameLen, Config.rrFixedLen, Config.entryLen,
      Config.statsLen]
    omega

/-! ### Clearing first does not change what is read: RX is no part of the result state -/

@[simp] theorem State.byte_rx_clearResult (s : State) (i : Nat) :
    s.clearResult.byte .rx i = s.byte .rx i := rfl

@[simp] theorem State.read16_rx_clearResult (s : State) (i : Nat) :
    s.clearResult.read16 .rx i = s.read16 .rx i := rfl

@[simp] theorem State.read32_rx_clearResult (s : State) (i : Nat) :
    s.clearResult.read32 .rx i = s.read32 .rx i := rfl

theorem State.bytes_rx_clearResult (s : State) (i n : Nat) :
    s.clearResult.bytes .rx i n = s.bytes .rx i n :=
  State.bytes_congr fun _ _ _ => rfl

/-! ### The records (R58, R122) -/

theorem Entry.record_length (e : Entry) (h : e.name.length = 15) : e.record.length = 20 := by
  simp [Entry.record, h, bytesOf32]

/-- Records write ENTRY alone, and keep every field but the buffers. -/
theorem writeRecords_eq (s : State) (k : Nat) (es : List Entry) :
    writeRecords s k es = { s with bufs := (writeRecords s k es).bufs } := by
  induction es generalizing s k with
  | nil => rfl
  | cons e es ih =>
    rw [writeRecords, ih]
    rfl

theorem writeRecords_epoch (s : State) (k : Nat) (es : List Entry) :
    (writeRecords s k es).epoch = s.epoch := by
  rw [writeRecords_eq]

theorem writeRecords_byte_other (s : State) (k : Nat) (es : List Entry) {b : Buffer}
    (hb : b ≠ .entry) (i : Nat) : (writeRecords s k es).byte b i = s.byte b i := by
  induction es generalizing s k with
  | nil => rfl
  | cons e es ih =>
    rw [writeRecords, ih, State.byte_writeBytes_outside _ _ _ _ (by simp [hb])]

/-- Below the first record and past the last one ENTRY reads as before. -/
theorem writeRecords_byte_outside (s : State) (k : Nat) (es : List Entry)
    (hn : ∀ e ∈ es, e.name.length = 15) {i : Nat} (h : i < 20 * k ∨ 20 * (k + es.length) ≤ i) :
    (writeRecords s k es).byte .entry i = s.byte .entry i := by
  induction es generalizing s k with
  | nil => rfl
  | cons e es ih =>
    have he : e.record.length = 20 := Entry.record_length e (hn e List.mem_cons_self)
    simp only [List.length_cons] at h
    rw [writeRecords, ih _ _ (fun e' h' => hn e' (List.mem_cons_of_mem _ h')) (by omega),
      State.byte_writeBytes_outside]
    simp only [Config.entryRecLen, he]
    omega

/-- Byte `m` of record `k + j` is byte `m` of entry j's record. -/
theorem writeRecords_byte_record (s : State) (k : Nat) (es : List Entry)
    (hn : ∀ e ∈ es, e.name.length = 15) {j m : Nat} {e : Entry} (hj : es[j]? = some e) (hm : m < 20) :
    (writeRecords s k es).byte .entry (20 * (k + j) + m) = e.record.getD m 0 := by
  induction es generalizing s k j with
  | nil => simp at hj
  | cons e' es ih =>
    have he : e'.record.length = 20 := Entry.record_length e' (hn e' List.mem_cons_self)
    have hn' : ∀ x ∈ es, x.name.length = 15 := fun x hx => hn x (List.mem_cons_of_mem _ hx)
    cases j with
    | zero =>
      obtain rfl : e' = e := by simpa using hj
      rw [writeRecords, writeRecords_byte_outside _ _ _ hn' (by omega)]
      exact State.byte_writeBytes_inside s .entry (20 * k) e'.record (by omega)
    | succ j =>
      rw [writeRecords, show k + (j + 1) = k + 1 + j by omega]
      exact ih _ _ hn' (by simpa using hj)

/-- Records that fit ENTRY keep every buffer's canonical form. -/
theorem writeRecords_wf {s : State} {k : Nat} {es : List Entry} (h : s.bufs.wf = true)
    (hn : ∀ e ∈ es, e.name.length = 15) (hk : k + es.length ≤ 26) :
    (writeRecords s k es).bufs.wf = true := by
  induction es generalizing s k with
  | nil => exact h
  | cons e es ih =>
    have he : e.record.length = 20 := Entry.record_length e (hn e List.mem_cons_self)
    simp only [List.length_cons] at hk
    refine ih (State.wf_writeBytes _ h ?_) (fun x hx => hn x (List.mem_cons_of_mem _ hx)) (by omega)
    simp only [Config.entryRecLen, he, bufferSize, Config.entryCap]
    omega

/-! ### PARSERESP as one case split (R110, R122, R123) -/

/-- The names a parse stages are 15 bytes long. -/
theorem entriesFrom_names (s : State) (c k : Nat) :
    ∀ e ∈ entriesFrom s c k, e.name.length = 15 := by
  induction k generalizing c with
  | zero => simp [entriesFrom]
  | succ k ih =>
    intro e he
    rcases List.mem_cons.1 he with rfl | he
    · simp [entryAt]
    · exact ih _ e he

/-- The state a PARSERESP ends in: its state function. -/
def parserespResult (s : State) : State :=
  finishParse s.clearResult (parseResponse s.clearResult s.engine.len.toNat)

theorem execParseresp_eq (s : State) : execParseresp s = .next (parserespResult s) := rfl

/-- A parse stages the same values from a cleared state. -/
theorem parsedOf_clearResult (s : State) : parsedOf s.clearResult = parsedOf s := by
  have he : ∀ c k, entriesFrom s.clearResult c k = entriesFrom s c k := by
    intro c k
    induction k generalizing c with
    | zero => rfl
    | succ k ih =>
      simp only [entriesFrom, ih, entryAt, State.bytes_rx_clearResult]
      rfl
  simp only [parsedOf, State.byte_rx_clearResult, he, State.bytes_rx_clearResult]
  rfl

/-- Everything PARSERESP can do, with the parameters of R8. -/
theorem parserespResult_cases (s : State) :
    (576 < s.engine.len.toNat ∧ parserespResult s
      = (s.clearResult.setCursor 0 0).complete .protocolViolation .sizeCeiling) ∨
    (s.engine.len.toNat ≤ 576 ∧ s.read16 .rx 44 ≠ 0x0021#16 ∧ parserespResult s
      = (s.clearResult.setCursor 54 0).complete .protocolViolation .typeDiscriminator) ∨
    (s.engine.len.toNat ≤ 576 ∧ s.read16 .rx 44 = 0x0021#16
      ∧ s.engine.len.toNat ≠ 101 + 18 * (s.byte .rx 54).toNat ∧ parserespResult s
        = (s.clearResult.setCursor 55 0).complete .protocolViolation .lengthCheck) ∨
    (s.engine.len.toNat ≤ 576 ∧ s.read16 .rx 44 = 0x0021#16
      ∧ s.engine.len.toNat = 101 + 18 * (s.byte .rx 54).toNat ∧ parserespResult s
        = ((s.clearResult.setCursor s.engine.len.toNat (s.byte .rx 54).toNat).commit
            (parsedOf s)).complete .none .none) := by
  by_cases h1 : s.engine.len.toNat ≤ 576
  · by_cases h2 : s.read16 .rx 44 = 0x0021#16
    · by_cases h3 : s.engine.len.toNat = 101 + 18 * (s.byte .rx 54).toNat
      · refine .inr (.inr (.inr ⟨h1, h2, h3, ?_⟩))
        rw [parserespResult, parseResponse_ok s.clearResult h1 h2 h3, parsedOf_clearResult]
        rfl
      · refine .inr (.inr (.inl ⟨h1, h2, h3, ?_⟩))
        rw [parserespResult, parseResponse_wrongLength s.clearResult h1 h2 h3]
        rfl
    · refine .inr (.inl ⟨h1, h2, ?_⟩)
      rw [parserespResult, parseResponse_wrongType s.clearResult h1 h2]
      rfl
  · refine .inl ⟨by omega, ?_⟩
    rw [parserespResult, parseResponse_oversize s.clearResult (by omega)]
    rfl

/-! ### The commit (R122) -/

/-- A commit writes the result state alone. -/
theorem State.commit_eq (s : State) (p : Parsed) :
    s.commit p = { s with
      res := p.results
      status := { s.status with resv := true }
      bufs := (s.commit p).bufs } := by
  rw [State.commit]
  rw [writeRecords_eq]
  rfl

theorem State.byte_commit_other (s : State) (p : Parsed) {b : Buffer} (h1 : b ≠ .stats)
    (h2 : b ≠ .entry) (i : Nat) : (s.commit p).byte b i = s.byte b i := by
  rw [State.commit, writeRecords_byte_other _ _ _ h2,
    State.byte_writeBytes_outside _ _ _ _ (by simp [h1])]
  rfl

theorem State.byte_commit_stats (s : State) (p : Parsed) {i : Nat} (hi : i < p.st.length) :
    (s.commit p).byte .stats i = p.st.getD i 0 := by
  rw [State.commit, writeRecords_byte_other _ _ _ (by decide)]
  simpa using State.byte_writeBytes_inside
    { s with res := p.results, status := { s.status with resv := true } } .stats 0 p.st hi

theorem State.byte_commit_stats_outside (s : State) (p : Parsed) {i : Nat} (hi : p.st.length ≤ i) :
    (s.commit p).byte .stats i = s.byte .stats i := by
  rw [State.commit, writeRecords_byte_other _ _ _ (by decide),
    State.byte_writeBytes_outside _ _ _ _ (by omega)]
  rfl

theorem State.byte_commit_record (s : State) (p : Parsed)
    (hn : ∀ e ∈ p.entries, e.name.length = 15) {k m : Nat} {e : Entry}
    (hk : p.entries[k]? = some e) (hm : m < 20) :
    (s.commit p).byte .entry (20 * k + m) = e.record.getD m 0 := by
  rw [State.commit]
  simpa using writeRecords_byte_record _ 0 p.entries hn hk hm

theorem State.byte_commit_entry_outside (s : State) (p : Parsed)
    (hn : ∀ e ∈ p.entries, e.name.length = 15) {i : Nat} (hi : 20 * p.entries.length ≤ i) :
    (s.commit p).byte .entry i = s.byte .entry i := by
  rw [State.commit, writeRecords_byte_outside _ _ _ hn (by omega),
    State.byte_writeBytes_outside _ _ _ _ (by simp)]
  rfl

end Sys2Proof.Machine
end

