-- ==== Sys2Proof/Laws/Step.lean ====
section
/-! SUPPORT. What a step can do: every command as a function of the state, the engine's turn, the host's
access, and one inversion lemma for `step`. -/

namespace Sys2Proof.Machine

/-- The state a command ends in: `exec` never stops. -/
def execResult (i : Instr) (s : State) : State :=
  match i with
  | .rd8 sel off => codecRead .one sel off s
  | .rd16 sel off => codecRead .two sel off s
  | .rd32 sel off => codecRead .four sel off s
  | .wr8 sel off => codecWrite .one sel off s
  | .wr16 sel off => codecWrite .two sel off s
  | .wr32 sel off => codecWrite .four sel off s
  | .encname => (s.writeBytes .enc 0 (haBytes (s.bytes .label 0 labelLen) ++ [0x00])).succeed
  | .buildreq => (s.writeBytes .tx 0 (requestHeader s.engine.id ++ requestQuestion)).succeed
  | .parseresp => parserespResult s

theorem exec_eq (i : Instr) (s : State) : exec i s = .next (execResult i s) := by
  cases i <;> rfl

/-- Outcomes that continue are equal exactly when their states are. -/
theorem next_inj {s t : State} :
    (Host.Outcome.next s : Host.Outcome State Fault Refusal) = .next t ↔ s = t :=
  ⟨fun h => by injection h, fun h => by rw [h]⟩

/-- The state the engine's step ends in. -/
def runResult (s : State) : State :=
  match decode s.engine.cw with
  | .ok i => execResult i s
  | .error _ => s.complete .invalidArgument .none

theorem runLatched_eq (s : State) : runLatched s = .next (runResult s) := by
  unfold runLatched runResult
  cases decode s.engine.cw with
  | ok i => exact exec_eq i s
  | error e => rfl

theorem engineTurn_busy {s : State} (h : s.engine.state = .busy) :
    engineTurn s = .next (runResult s) := by
  rw [engineTurn, if_pos ((State.busy_iff s).2 h), runLatched_eq]

theorem engineTurn_idle {s : State} (h : s.engine.state = .idle) : engineTurn s = .next s := by
  rw [engineTurn, if_neg]
  simp [State.busy, h]

/-- What a host access answers when it is taken. -/
def accessResult (a : HostAccess) (s : State) : State :=
  match a.kind with
  | .read => hostRead a.offset s
  | .write v => hostWrite a.offset v s

theorem HostAccess.legal_iff (a : HostAccess) :
    a.legal = true ↔ a.bits = 32 ∧ a.offset % 4 = 0 ∧ a.offset ≤ 0x7C := by
  simp only [HostAccess.legal, Bool.and_eq_true, decide_eq_true_eq, and_assoc]
  rfl

theorem hostAccess_taken {a : HostAccess} {s : State} (hr : s.inReset = false)
    (hl : a.legal = true) : hostAccess a s = .next (accessResult a s) := by
  unfold hostAccess accessResult
  rw [if_neg (by simp [hr]), if_pos hl]
  cases a.kind <;> rfl

theorem hostAccess_illegal {a : HostAccess} {s : State} (hr : s.inReset = false)
    (hl : ¬ a.legal = true) : hostAccess a s = .fault .busError := by
  unfold hostAccess
  rw [if_neg (by simp [hr]), if_neg hl]

theorem hostAccess_inReset {a : HostAccess} {s : State} (hr : s.inReset = true) :
    hostAccess a s = .fault .busErrorInReset := by
  unfold hostAccess
  rw [if_pos hr]

theorem hostAccess_next {a : HostAccess} {s t : State} (h : hostAccess a s = .next t) :
    s.inReset = false ∧ a.legal = true ∧ t = accessResult a s := by
  by_cases hr : s.inReset = true
  · rw [hostAccess_inReset hr] at h
    cases h
  · have hr' : s.inReset = false := by simpa using hr
    by_cases hl : a.legal = true
    · rw [hostAccess_taken hr' hl] at h
      exact ⟨hr', hl, (next_inj.1 h).symm⟩
    · rw [hostAccess_illegal hr' hl] at h
      cases h

/-- The offsets of the four registers a host write can change (R21). -/
theorem Reg.ofOffset_writable {off : Nat} {r : Reg} (h : Reg.ofOffset off = some r)
    (hw : r.writable = true) : off = 0x00 ∨ off = 0x08 ∨ off = 0x0C ∨ off = 0x10 := by
  have hr : r = .cmd ∨ r = .data ∨ r = .rxlen ∨ r = .txid := by
    cases r <;> simp_all [Reg.writable]
  unfold Reg.ofOffset at h
  split at h <;> simp_all <;> (subst h; simp at hr)

/-- Everything a host write can do. -/
theorem hostWrite_cases (off : Nat) (v : Word) (s : State) :
    (∃ r, Reg.ofOffset off = some r ∧ r.writable = true ∧ s.busy = true ∧
      hostWrite off v s = State.dropWrite { s with reply := none }) ∨
    (∃ r, Reg.ofOffset off = some r ∧ r.writable = true ∧ s.busy = false ∧
      hostWrite off v s = State.regWrite { s with reply := none } v r) ∨
    ((∀ r, Reg.ofOffset off = some r → r.writable = false) ∧
      hostWrite off v s = { s with reply := none }) := by
  unfold hostWrite
  cases hr : Reg.ofOffset off with
  | none => exact .inr (.inr ⟨fun r h => by simp at h, rfl⟩)
  | some r =>
    by_cases hw : r.writable = true
    · by_cases hb : s.busy = true
      · refine .inl ⟨r, rfl, hw, hb, ?_⟩
        have hb' : State.busy { s with reply := none } = true := hb
        simp only [hw, if_true, hb']
      · have hb0 : s.busy = false := by simpa using hb
        have hb' : State.busy { s with reply := none } = false := hb0
        refine .inr (.inl ⟨r, rfl, hw, hb0, ?_⟩)
        simp [hw, hb']
    · have hw' : r.writable = false := by simpa using hw
      refine .inr (.inr ⟨fun r' h => ?_, ?_⟩)
      · obtain rfl : r = r' := by simpa using h
        exact hw'
      · simp [hw']

/-- A host read changes the reply, and while BUSY the free values drawn, and nothing else. -/
theorem hostRead_eq (off : Nat) (s : State) :
    ∃ v n, hostRead off s = { s with reply := some v, draws := n } := by
  unfold hostRead
  split
  · exact ⟨_, _, rfl⟩
  · exact ⟨_, s.draws, rfl⟩

/-! ### A WAIT (R80) -/

/-- Bit 0 of the STATUS word is BUSY (R25). -/
theorem State.statusWord_busy (s : State) : s.statusWord.getLsbD 0 = s.busy := by
  simp only [State.statusWord]
  rw [BitVec.getLsbD_append]
  cases s.busy <;> rfl

/-- What a WAIT answers when its read is taken: the reply is STATUS, and the wait goes on while BUSY. -/
def waitResult (polls : Nat) (s : State) : State :=
  { s with
    reply := some s.statusWord
    schedule := if s.busy = true then waitTurns polls ++ s.schedule else s.schedule }

@[simp] theorem waitResult_status (polls : Nat) (s : State) :
    (waitResult polls s).status = s.status := rfl

@[simp] theorem waitResult_data (polls : Nat) (s : State) :
    (waitResult polls s).data = s.data := rfl

@[simp] theorem waitResult_rxlen (polls : Nat) (s : State) :
    (waitResult polls s).rxlen = s.rxlen := rfl

@[simp] theorem waitResult_txid (polls : Nat) (s : State) :
    (waitResult polls s).txid = s.txid := rfl

@[simp] theorem waitResult_res (polls : Nat) (s : State) :
    (waitResult polls s).res = s.res := rfl

@[simp] theorem waitResult_bufs (polls : Nat) (s : State) :
    (waitResult polls s).bufs = s.bufs := rfl

@[simp] theorem waitResult_engine (polls : Nat) (s : State) :
    (waitResult polls s).engine = s.engine := rfl

@[simp] theorem waitResult_inReset (polls : Nat) (s : State) :
    (waitResult polls s).inReset = s.inReset := rfl

@[simp] theorem waitResult_epoch (polls : Nat) (s : State) :
    (waitResult polls s).epoch = s.epoch := rfl

@[simp] theorem waitResult_draws (polls : Nat) (s : State) :
    (waitResult polls s).draws = s.draws := rfl

@[simp] theorem waitResult_reply (polls : Nat) (s : State) :
    (waitResult polls s).reply = some s.statusWord := rfl

@[simp] theorem byte_waitResult (polls : Nat) (s : State) (b : Buffer) (i : Nat) :
    (waitResult polls s).byte b i = s.byte b i := rfl

theorem waitTurn_taken {polls : Nat} {s : State} (hr : s.inReset = false) :
    waitTurn polls s = .next (waitResult polls s) := by
  have hread : hostRead Reg.status.offset s = { s with reply := some s.statusWord } := by
    simp [hostRead, Reg.offset, Reg.ofOffset, State.offsetValue, State.regValue]
  have ha : hostAccess ⟨.read, 32, Reg.status.offset⟩ s
      = .next { s with reply := some s.statusWord } := by
    rw [hostAccess_taken hr (by decide), accessResult, hread]
  have hb : State.readBusy { s with reply := some s.statusWord } = s.busy := s.statusWord_busy
  unfold waitTurn waitResult
  rw [ha]
  cases h : s.busy <;> simp [hb, h]

theorem waitTurn_inReset {polls : Nat} {s : State} (hr : s.inReset = true) :
    waitTurn polls s = .fault .busErrorInReset := by
  unfold waitTurn
  rw [hostAccess_inReset hr]

theorem waitTurn_next {polls : Nat} {s t : State} (h : waitTurn polls s = .next t) :
    s.inReset = false ∧ t = waitResult polls s := by
  cases hr : s.inReset with
  | true =>
    rw [waitTurn_inReset hr] at h
    cases h
  | false =>
    rw [waitTurn_taken hr] at h
    exact ⟨rfl, (next_inj.1 h).symm⟩

/-- Everything one step can do when it answers a next state. -/
theorem step_cases {s t : State} (h : step s = .next t) :
    (EngineNext s ∧ s.engine.state = .idle ∧ t = s.popTurn) ∨
    (EngineNext s ∧ s.engine.state = .busy ∧ t = runResult s.popTurn) ∨
    (∃ a rest, s.schedule = .access a :: rest ∧ s.inReset = false ∧ a.legal = true
      ∧ t = accessResult a s.popTurn) ∨
    (∃ on rest, s.schedule = .resetLine on :: rest ∧ t = s.popTurn.driveReset on) ∨
    (∃ polls rest, s.schedule = .wait polls :: rest ∧ s.inReset = false
      ∧ t = waitResult polls s.popTurn) := by
  unfold step at h
  have hengine : ∀ u : State, engineTurn u = .next t → u = s.popTurn → EngineNext s →
      (EngineNext s ∧ s.engine.state = .idle ∧ t = s.popTurn) ∨
      (EngineNext s ∧ s.engine.state = .busy ∧ t = runResult s.popTurn) := by
    intro u hu he hn
    subst he
    cases hs : s.engine.state with
    | idle =>
      rw [engineTurn_idle (by simpa using hs)] at hu
      exact .inl ⟨hn, rfl, (next_inj.1 hu).symm⟩
    | busy =>
      rw [engineTurn_busy (by simpa using hs)] at hu
      exact .inr ⟨hn, rfl, (next_inj.1 hu).symm⟩
  split at h
  · rename_i hs
    have : s = s.popTurn := by
      cases s
      simp_all [State.popTurn]
    exact (hengine s h this (.inl hs)).imp id .inl
  · rename_i rest hs
    have : ({ s with schedule := rest } : State) = s.popTurn := by
      unfold State.popTurn
      rw [hs]
      rfl
    exact (hengine _ h this (.inr ⟨rest, hs⟩)).imp id .inl
  · rename_i a rest hs
    have e : ({ s with schedule := rest } : State) = s.popTurn := by
      unfold State.popTurn
      rw [hs]
      rfl
    rw [e] at h
    have ⟨h1, h2, h3⟩ := hostAccess_next h
    exact .inr (.inr (.inl ⟨a, rest, hs, h1, h2, h3⟩))
  · rename_i on rest hs
    have e : ({ s with schedule := rest } : State) = s.popTurn := by
      unfold State.popTurn
      rw [hs]
      rfl
    rw [e] at h
    exact .inr (.inr (.inr (.inl ⟨on, rest, hs, (next_inj.1 h).symm⟩)))
  · rename_i polls rest hs
    have e : ({ s with schedule := rest } : State) = s.popTurn := by
      unfold State.popTurn
      rw [hs]
      rfl
    rw [e] at h
    exact .inr (.inr (.inr (.inr ⟨polls, rest, hs, waitTurn_next h⟩)))

end Sys2Proof.Machine
end

