-- ==== Sys2Proof/Laws/Frames.lean ====
section
/-! SUPPORT. Frames: the parts of the state each operation keeps, and that frames compose. -/

namespace Sys2Proof.Machine

theorem KeepsOperands.refl (s : State) : KeepsOperands s s := ⟨rfl, rfl, rfl⟩

theorem KeepsOperands.trans {s t u : State} (h : KeepsOperands s t) (k : KeepsOperands t u) :
    KeepsOperands s u :=
  ⟨k.data.trans h.data, k.rxlen.trans h.rxlen, k.txid.trans h.txid⟩

theorem KeepsLatches.refl (s : State) : KeepsLatches s s := ⟨rfl, rfl, rfl, rfl⟩

theorem KeepsLatches.trans {s t u : State} (h : KeepsLatches s t) (k : KeepsLatches t u) :
    KeepsLatches s u :=
  ⟨k.cw.trans h.cw, k.d.trans h.d, k.len.trans h.len, k.id.trans h.id⟩

theorem KeepsCursor.refl (s : State) : KeepsCursor s s := ⟨rfl, rfl⟩

theorem KeepsCursor.trans {s t u : State} (h : KeepsCursor s t) (k : KeepsCursor t u) :
    KeepsCursor s u :=
  ⟨k.c.trans h.c, k.i.trans h.i⟩

theorem KeepsOuter.refl (s : State) : KeepsOuter s s := ⟨rfl, rfl, rfl, rfl, rfl, rfl⟩

theorem KeepsOuter.trans {s t u : State} (h : KeepsOuter s t) (k : KeepsOuter t u) :
    KeepsOuter s u :=
  ⟨k.ovr.trans h.ovr, k.inReset.trans h.inReset, k.epoch.trans h.epoch, k.draws.trans h.draws,
    k.reply.trans h.reply, k.schedule.trans h.schedule⟩

theorem KeepsResult.refl (s : State) : KeepsResult s s :=
  ⟨rfl, fun _ => rfl, fun _ => rfl, rfl⟩

theorem KeepsResult.trans {s t u : State} (h : KeepsResult s t) (k : KeepsResult t u) :
    KeepsResult s u :=
  ⟨k.res.trans h.res, fun i => (k.stats i).trans (h.stats i),
    fun i => (k.entry i).trans (h.entry i), k.resv.trans h.resv⟩

/-! ### Completion -/

theorem State.complete_ends (s : State) (e : ErrorKind) (g : Gate) :
    EndedWith (s.complete e g) e.code g.number := by
  constructor <;> simp

theorem State.complete_keepsOperands (s : State) (e : ErrorKind) (g : Gate) :
    KeepsOperands s (s.complete e g) := by
  constructor <;> simp

theorem State.complete_keepsLatches (s : State) (e : ErrorKind) (g : Gate) :
    KeepsLatches s (s.complete e g) := by
  constructor <;> simp

theorem State.complete_keepsCursor (s : State) (e : ErrorKind) (g : Gate) :
    KeepsCursor s (s.complete e g) := by
  constructor <;> simp

theorem State.complete_keepsOuter (s : State) (e : ErrorKind) (g : Gate) :
    KeepsOuter s (s.complete e g) := by
  constructor <;> simp

theorem State.complete_keepsResult (s : State) (e : ErrorKind) (g : Gate) :
    KeepsResult s (s.complete e g) := by
  constructor <;> simp

/-! ### Writing bytes -/

theorem State.writeBytes_keepsOperands (s : State) (b : Buffer) (i : Nat) (vs : List Byte) :
    KeepsOperands s (s.writeBytes b i vs) := by
  constructor <;> simp

theorem State.writeBytes_keepsLatches (s : State) (b : Buffer) (i : Nat) (vs : List Byte) :
    KeepsLatches s (s.writeBytes b i vs) := by
  constructor <;> simp

theorem State.writeBytes_keepsCursor (s : State) (b : Buffer) (i : Nat) (vs : List Byte) :
    KeepsCursor s (s.writeBytes b i vs) := by
  constructor <;> simp

theorem State.writeBytes_keepsOuter (s : State) (b : Buffer) (i : Nat) (vs : List Byte) :
    KeepsOuter s (s.writeBytes b i vs) := by
  constructor <;> simp

/-- A write outside STATS and ENTRY keeps the result state. -/
theorem State.writeBytes_keepsResult (s : State) {b : Buffer} (i : Nat) (vs : List Byte)
    (h1 : b ≠ .stats) (h2 : b ≠ .entry) : KeepsResult s (s.writeBytes b i vs) := by
  refine ⟨by simp, fun j => ?_, fun j => ?_, by simp⟩
  · exact State.byte_writeBytes_outside _ _ _ _ (by simp [Ne.symm h1])
  · exact State.byte_writeBytes_outside _ _ _ _ (by simp [Ne.symm h2])

/-! ### PARSERESP's own updates -/

theorem State.clearResult_keepsOperands (s : State) : KeepsOperands s s.clearResult := by
  constructor <;> simp

theorem State.clearResult_keepsLatches (s : State) : KeepsLatches s s.clearResult := by
  constructor <;> simp

theorem State.clearResult_keepsOuter (s : State) : KeepsOuter s s.clearResult := by
  constructor <;> simp

theorem State.setCursor_keepsOperands (s : State) (c i : Nat) :
    KeepsOperands s (s.setCursor c i) := by
  constructor <;> simp

theorem State.setCursor_keepsLatches (s : State) (c i : Nat) :
    KeepsLatches s (s.setCursor c i) := by
  constructor <;> simp

theorem State.setCursor_keepsOuter (s : State) (c i : Nat) : KeepsOuter s (s.setCursor c i) := by
  constructor <;> simp

theorem State.commit_keepsOperands (s : State) (p : Parsed) : KeepsOperands s (s.commit p) := by
  rw [State.commit_eq]
  exact ⟨rfl, rfl, rfl⟩

theorem State.commit_keepsLatches (s : State) (p : Parsed) : KeepsLatches s (s.commit p) := by
  rw [State.commit_eq]
  exact ⟨rfl, rfl, rfl, rfl⟩

theorem State.commit_keepsOuter (s : State) (p : Parsed) : KeepsOuter s (s.commit p) := by
  rw [State.commit_eq]
  exact ⟨rfl, rfl, rfl, rfl, rfl, rfl⟩

/-- PARSERESP keeps the operand registers, the latches, and everything no command touches. -/
theorem parserespResult_keeps (s : State) :
    KeepsOperands s (parserespResult s) ∧ KeepsLatches s (parserespResult s)
      ∧ KeepsOuter s (parserespResult s) := by
  have failing : ∀ c i e g,
      KeepsOperands s ((s.clearResult.setCursor c i).complete e g)
        ∧ KeepsLatches s ((s.clearResult.setCursor c i).complete e g)
        ∧ KeepsOuter s ((s.clearResult.setCursor c i).complete e g) := fun c i e g =>
    ⟨(s.clearResult_keepsOperands.trans (State.setCursor_keepsOperands _ _ _)).trans
        (State.complete_keepsOperands _ _ _),
      (s.clearResult_keepsLatches.trans (State.setCursor_keepsLatches _ _ _)).trans
        (State.complete_keepsLatches _ _ _),
      (s.clearResult_keepsOuter.trans (State.setCursor_keepsOuter _ _ _)).trans
        (State.complete_keepsOuter _ _ _)⟩
  rcases parserespResult_cases s with ⟨-, e⟩ | ⟨-, -, e⟩ | ⟨-, -, -, e⟩ | ⟨-, -, -, e⟩ <;> rw [e]
  · exact failing _ _ _ _
  · exact failing _ _ _ _
  · exact failing _ _ _ _
  · exact
      ⟨((s.clearResult_keepsOperands.trans (State.setCursor_keepsOperands _ _ _)).trans
          (State.commit_keepsOperands _ _)).trans (State.complete_keepsOperands _ _ _),
        ((s.clearResult_keepsLatches.trans (State.setCursor_keepsLatches _ _ _)).trans
          (State.commit_keepsLatches _ _)).trans (State.complete_keepsLatches _ _ _),
        ((s.clearResult_keepsOuter.trans (State.setCursor_keepsOuter _ _ _)).trans
          (State.commit_keepsOuter _ _)).trans (State.complete_keepsOuter _ _ _)⟩

/-! ### Every command -/

/-- What no command touches is kept by every command, and so are the latches (R44). -/
theorem execResult_keeps (i : Instr) (s : State) :
    KeepsLatches s (execResult i s) ∧ KeepsOuter s (execResult i s) := by
  have reading : ∀ n sel off, KeepsLatches s (codecRead n sel off s)
      ∧ KeepsOuter s (codecRead n sel off s) := by
    intro n sel off
    rcases codecRead_cases n sel off s with ⟨b, -, e⟩ | ⟨-, e⟩ <;> rw [e]
    · exact ⟨⟨rfl, rfl, rfl, rfl⟩, ⟨rfl, rfl, rfl, rfl, rfl, rfl⟩⟩
    · exact ⟨State.complete_keepsLatches _ _ _, State.complete_keepsOuter _ _ _⟩
  have storing : ∀ b j vs e g, KeepsLatches s ((s.writeBytes b j vs).complete e g)
      ∧ KeepsOuter s ((s.writeBytes b j vs).complete e g) := fun b j vs e g =>
    ⟨(State.writeBytes_keepsLatches _ _ _ _).trans (State.complete_keepsLatches _ _ _),
      (State.writeBytes_keepsOuter _ _ _ _).trans (State.complete_keepsOuter _ _ _)⟩
  have writing : ∀ n sel off, KeepsLatches s (codecWrite n sel off s)
      ∧ KeepsOuter s (codecWrite n sel off s) := by
    intro n sel off
    rcases codecWrite_cases n sel off s with ⟨b, -, e⟩ | ⟨-, e⟩ <;> rw [e]
    · exact storing _ _ _ _ _
    · exact ⟨State.complete_keepsLatches _ _ _, State.complete_keepsOuter _ _ _⟩
  cases i with
  | rd8 sel off => exact reading _ _ _
  | rd16 sel off => exact reading _ _ _
  | rd32 sel off => exact reading _ _ _
  | wr8 sel off => exact writing _ _ _
  | wr16 sel off => exact writing _ _ _
  | wr32 sel off => exact writing _ _ _
  | encname => exact storing _ _ _ _ _
  | buildreq => exact storing _ _ _ _ _
  | parseresp => exact (parserespResult_keeps s).2

end Sys2Proof.Machine
end

