-- ==== Sys2Proof/Laws/NameEncoder.lean ====
section
/-! SUPPORT. The half-ASCII encoding byte by byte (spec 41_name_encoder.md R93, R94) and the length of the
request (42_request_builder.md R97). -/

namespace Sys2Proof.Machine

@[simp] theorem haBytes_length (l : List Byte) : (haBytes l).length = 2 * l.length := by
  induction l with
  | nil => rfl
  | cons b rest ih => simp [haBytes, ih]; omega

/-- The letters of byte `k` stand at `2k` and `2k + 1`, the high nibble's first. -/
theorem haBytes_getElem? (l : List Byte) {k : Nat} (hk : k < l.length) :
    (haBytes l)[2 * k]? = some (haHi (l.getD k 0)) ∧
      (haBytes l)[2 * k + 1]? = some (haLo (l.getD k 0)) := by
  induction l generalizing k with
  | nil => simp at hk
  | cons b rest ih =>
    cases k with
    | zero => exact ⟨rfl, rfl⟩
    | succ k =>
      have := ih (k := k) (by simpa using hk)
      simpa [haBytes, Nat.mul_add] using this

/-- What ENCNAME stores: 33 bytes. -/
def encBytes (s : State) : List Byte := haBytes (s.bytes .label 0 labelLen) ++ [0x00]

theorem encBytes_length (s : State) : (encBytes s).length = 33 := by
  simp [encBytes, labelLen]

theorem encBytes_letters (s : State) {k : Nat} (hk : k < 16) :
    (encBytes s).getD (2 * k) 0 = haHi (s.byte .label k) ∧
      (encBytes s).getD (2 * k + 1) 0 = haLo (s.byte .label k) := by
  have hl : k < (s.bytes .label 0 labelLen).length := by simpa [labelLen] using hk
  have hb : (s.bytes .label 0 labelLen).getD k 0 = s.byte .label k := by
    rw [State.bytes_getD _ _ _ _ (by simpa [labelLen] using hk), Nat.zero_add]
  have ⟨h1, h2⟩ := haBytes_getElem? _ hl
  rw [hb] at h1 h2
  have hlen : (haBytes (s.bytes .label 0 labelLen)).length = 32 := by simp [labelLen]
  constructor
  · rw [encBytes, List.getD_eq_getElem?_getD, List.getElem?_append_left (by omega), h1]
    rfl
  · rw [encBytes, List.getD_eq_getElem?_getD, List.getElem?_append_left (by omega), h2]
    rfl

theorem encBytes_terminator (s : State) : (encBytes s).getD 32 0 = 0x00 := by
  have hlen : (haBytes (s.bytes .label 0 labelLen)).length = 32 := by simp [labelLen]
  rw [encBytes, List.getD_eq_getElem?_getD, List.getElem?_append_right (by omega), hlen]
  rfl

/-- `HA` determines its byte (R95). -/
theorem ha_inj : ∀ a b : Byte, haHi a = haHi b → haLo a = haLo b → a = b := by
  intro a b h1 h2
  have hi : a.extractLsb' 4 4 = b.extractLsb' 4 4 := by
    have := (BitVec.add_right_inj (0x41#8)).1 h1
    simpa using congrArg (fun x : BitVec 8 => x.setWidth 4) this
  have lo : a.extractLsb' 0 4 = b.extractLsb' 0 4 := by
    have := (BitVec.add_right_inj (0x41#8)).1 h2
    simpa using congrArg (fun x : BitVec 8 => x.setWidth 4) this
  apply BitVec.eq_of_getLsbD_eq
  intro i hi8
  by_cases h : i < 4
  · have := congrArg (fun x : BitVec 4 => x.getLsbD i) lo
    simpa [h] using this
  · have := congrArg (fun x : BitVec 4 => x.getLsbD (i - 4)) hi
    simpa [show i - 4 < 4 by omega, show 4 + (i - 4) = i by omega] using this

/-- A request has 50 bytes (R97). -/
theorem request_length (id : Half) : (requestHeader id ++ requestQuestion).length = 50 := rfl

/-- From byte 12 on a request is the question section, whatever the transaction id (R97). -/
theorem request_getD_question (id : Half) {k : Nat} (hk : 12 ≤ k) :
    (requestHeader id ++ requestQuestion).getD k 0 = requestQuestion.getD (k - 12) 0 := by
  have hl : (requestHeader id).length = 12 := rfl
  rw [List.getD_eq_getElem?_getD, List.getElem?_append_right (by omega), hl,
    List.getD_eq_getElem?_getD]

/-- Byte `k` of TX after the request is written. -/
theorem byte_tx_request (s : State) {k : Nat} (hk : k < 50) :
    (s.writeBytes .tx 0 (requestHeader s.engine.id ++ requestQuestion)).byte .tx k
      = (requestHeader s.engine.id ++ requestQuestion).getD k 0 := by
  have := State.byte_writeBytes_inside s .tx 0 (requestHeader s.engine.id ++ requestQuestion)
    (k := k) (by rw [request_length]; exact hk)
  rwa [Nat.zero_add] at this

/-- Byte `k` of ENC after the name is written. -/
theorem byte_enc_name (s : State) {k : Nat} (hk : k < 33) :
    (s.writeBytes .enc 0 (encBytes s)).byte .enc k = (encBytes s).getD k 0 := by
  have := State.byte_writeBytes_inside s .enc 0 (encBytes s) (k := k)
    (by rw [encBytes_length]; exact hk)
  rwa [Nat.zero_add] at this

end Sys2Proof.Machine
end

