-- ==== Sys2Proof/Laws/PerInstr.lean ====
section
/-! SUPPORT. Facts about a command as syntax, one lemma per constructor of `Instr`. -/

namespace Sys2Proof.Laws

/-! ### The encoding of a command lies in its row of the opcode table (spec 30_encoding.md R81) -/

/-- The bits of a well-formed codec word under the codec rows' mask are OP alone. -/
theorem assemble_masked (op : BitVec 4) (buf : BitVec 3) {off : Nat} (h : off < offsetLimit) :
    assemble op buf off &&& 0xFFFC008F#32 = op.setWidth 32 := by
  apply BitVec.eq_of_getLsbD_eq
  intro i hi
  simp only [assemble, BitVec.getLsbD_and, BitVec.getLsbD_or, BitVec.getLsbD_shiftLeft,
    BitVec.getLsbD_setWidth, BitVec.getLsbD_ofNat]
  have hoff : ∀ j, 10 ≤ j → off.testBit j = false := fun j hj =>
    Nat.testBit_lt_two_pow (Nat.lt_of_lt_of_le h (Nat.pow_le_pow_right (n := 2) (by omega) hj))
  have hbuf : ∀ j, 3 ≤ j → buf.getLsbD j = false := fun j hj => BitVec.getLsbD_of_ge _ _ hj
  have hop : ∀ j, 4 ≤ j → op.getLsbD j = false := fun j hj => BitVec.getLsbD_of_ge _ _ hj
  interval_cases i <;> simp_all <;> (intro _; decide)

namespace EncodeInTable

/-- The command's word is selected by the row of its mnemonic. -/
def Statement (i : Instr) : Prop :=
  WellFormed i → ∀ r ∈ opcodeTable, r.mnemonic = i.mnemonic → r.selects (encode i)

/-- The row of each mnemonic. -/
def row : Mnemonic → OpcodeRow
  | .RD8 => ⟨.RD8, 0x00000001, 0xFFFC008F⟩
  | .RD16 => ⟨.RD16, 0x00000002, 0xFFFC008F⟩
  | .RD32 => ⟨.RD32, 0x00000003, 0xFFFC008F⟩
  | .WR8 => ⟨.WR8, 0x00000005, 0xFFFC008F⟩
  | .WR16 => ⟨.WR16, 0x00000006, 0xFFFC008F⟩
  | .WR32 => ⟨.WR32, 0x00000007, 0xFFFC008F⟩
  | .ENCNAME => ⟨.ENCNAME, 0x00000008, 0xFFFFFFFF⟩
  | .BUILDREQ => ⟨.BUILDREQ, 0x00000009, 0xFFFFFFFF⟩
  | .PARSERESP => ⟨.PARSERESP, 0x0000000A, 0xFFFFFFFF⟩

/-- A row of the table is the row of its mnemonic. -/
theorem row_of (m : Mnemonic) (r : OpcodeRow) (h : r ∈ opcodeTable) (hm : r.mnemonic = m) :
    r = row m := by
  subst hm
  simp only [opcodeTable, List.mem_cons, List.not_mem_nil, or_false] at h
  rcases h with rfl | rfl | rfl | rfl | rfl | rfl | rfl | rfl | rfl <;> rfl

theorem rd8 (sel : BufSel) (off : Nat) : Statement (.rd8 sel off) := fun h r hr hm => by
  rw [row_of _ r hr hm]
  exact assemble_masked _ _ (of_decide_eq_true h)

theorem rd16 (sel : BufSel) (off : Nat) : Statement (.rd16 sel off) := fun h r hr hm => by
  rw [row_of _ r hr hm]
  exact assemble_masked _ _ (of_decide_eq_true h)

theorem rd32 (sel : BufSel) (off : Nat) : Statement (.rd32 sel off) := fun h r hr hm => by
  rw [row_of _ r hr hm]
  exact assemble_masked _ _ (of_decide_eq_true h)

theorem wr8 (sel : BufSel) (off : Nat) : Statement (.wr8 sel off) := fun h r hr hm => by
  rw [row_of _ r hr hm]
  exact assemble_masked _ _ (of_decide_eq_true h)

theorem wr16 (sel : BufSel) (off : Nat) : Statement (.wr16 sel off) := fun h r hr hm => by
  rw [row_of _ r hr hm]
  exact assemble_masked _ _ (of_decide_eq_true h)

theorem wr32 (sel : BufSel) (off : Nat) : Statement (.wr32 sel off) := fun h r hr hm => by
  rw [row_of _ r hr hm]
  exact assemble_masked _ _ (of_decide_eq_true h)

theorem encname : Statement .encname := fun _ r hr hm => by
  rw [row_of _ r hr hm]
  show encode .encname &&& 0xFFFFFFFF#32 = _
  decide

theorem buildreq : Statement .buildreq := fun _ r hr hm => by
  rw [row_of _ r hr hm]
  show encode .buildreq &&& 0xFFFFFFFF#32 = _
  decide

theorem parseresp : Statement .parseresp := fun _ r hr hm => by
  rw [row_of _ r hr hm]
  show encode .parseresp &&& 0xFFFFFFFF#32 = _
  decide

end EncodeInTable

end Sys2Proof.Laws
end

