-- ==== Sys2Proof/Tests/Slice0.lean ====
section
/-! SUPPORT. Tests: ill-formed commands are refused, words written out from spec 30_encoding.md R70 decode,
single steps with the values of 95_test_vectors.md, and for every statement with hypotheses a state
that meets them. Every expected value is the spec's, none is this model's own answer. -/

namespace Sys2Proof.Tests

open Sys2Proof Sys2Proof.Machine

/-! ### States for the tests -/

/-- `vs` at rising indices from `i` on. -/
def cells (i : Nat) : List Byte → Memory
  | [] => []
  | v :: rest => (i, v) :: cells (i + 1) rest

/-- The block after reset with these bytes in RX and LABEL, DATA at 0xA5A5A5A5 as in 95_test_vectors.md
section 2.1, and DATA, RXLEN and TXID latched by the engine (R24). -/
def blockWith (rx label : Memory) (data : Word) (rxlen txid : Half) : State :=
  { State.reset with
    data := data
    rxlen := rxlen
    txid := txid
    bufs := ⟨rx, [], label, [], [], []⟩
    engine := ⟨.busy, 0, data, rxlen, txid, 0, 0⟩ }

/-- 95_test_vectors.md section 2.2: RX[575] = 0x11 and RX[1..4] = 11 22 33 44 (section 2.3). -/
def codecBlock : State :=
  blockWith (cells 1 [0x11, 0x22, 0x33, 0x44] ++ [(575, 0x11)]) [] 0xA5A5A5A5 0 0

/-- A block that latched DATA = 0x12345678 (section 2.3). -/
def storeBlock : State := blockWith [] [] 0x12345678 0 0

/-- LABEL = "FILESERVER", five spaces, suffix 0x20 (section 2.4, P2). -/
def fileserver : List Byte :=
  [0x46, 0x49, 0x4C, 0x45, 0x53, 0x45, 0x52, 0x56, 0x45, 0x52] ++ List.replicate 6 0x20

/-- The header, name, resource record and count of P3's datagram (section 3). -/
def p3Head : List Byte :=
  [0x12, 0x34, 0x84, 0x00, 0x00, 0x00, 0x00, 0x01, 0x00, 0x00, 0x00, 0x00, 0x43, 0x4B]
    ++ List.replicate 30 0x41
    ++ [0x00, 0x21, 0x00, 0x01, 0x00, 0x00, 0x00, 0x00, 0x00, 0x53, 0x02]

/-- The two entries and the statistics block of P3's datagram (section 3). -/
def p3Tail : List Byte :=
  [0x57, 0x4F, 0x52, 0x4B, 0x53, 0x54, 0x41, 0x54, 0x49, 0x4F, 0x4E, 0x20, 0x20, 0x20, 0x20,
      0x00, 0x04, 0x00]
    ++ fileserver ++ [0x04, 0x00]
    ++ [0xAA, 0xBB, 0xCC, 0xDD, 0xEE, 0xFF] ++ List.replicate 40 0x00

/-- P3's datagram in RX, with RXLEN as given. -/
def p3Block (rxlen : Half) : State := blockWith (cells 0 (p3Head ++ p3Tail)) [] 0 rxlen 0

/-- A block whose RX holds only what the gates look at: the type, its two bytes, and the count. -/
def gateBlock (typeLow n : Byte) (rxlen : Half) : State :=
  blockWith [(44, 0x00), (45, typeLow), (54, n)] [] 0 rxlen 0

/-- The block with one turn to come, the engine idle or busy with a BUILDREQ. -/
def facing (e : EngineState) (t : Turn) : State :=
  { State.reset with engine := ⟨e, 0x00000009, 0, 0, 0, 0, 0⟩, schedule := [t] }

/-- The block facing an aligned 32-bit read at an offset. -/
def facingRead (e : EngineState) (off : Nat) : State := facing e (.access ⟨.read, 32, off⟩)

/-- The block facing an aligned 32-bit write of `v` at an offset. -/
def facingWrite (e : EngineState) (off : Nat) (v : Word) : State :=
  facing e (.access ⟨.write v, 32, off⟩)

/-- The block with the engine's turn next and a command word latched. -/
def facingEngine (e : EngineState) (cw : Word) : State :=
  { facing e .engine with engine := ⟨e, cw, 0, 0, 0, 0, 0⟩ }

/-- STATUS and DATA after a command. -/
def statusData (i : Instr) (s : State) : Option (Word × Word) :=
  (nextOf (exec i s)).map fun t => (t.statusWord, t.data)

/-- The word that the next step answers to a host read. -/
def answer (s : State) : Option Word := (nextOf (step s)).bind fun t => t.reply

/-- The word is no command. -/
def rejected (w : Word) : Bool :=
  match decode w with
  | .ok _ => false
  | .error _ => true

/-! ### WellFormed refuses an offset that has no encoding (R73) -/

theorem test_wf_rd8 : ¬ WellFormed (.rd8 (.buffer .rx) 1024) := by decide
theorem test_wf_rd16 : ¬ WellFormed (.rd16 (.buffer .tx) 1024) := by decide
theorem test_wf_rd32 : ¬ WellFormed (.rd32 (.buffer .entry) 4096) := by decide
theorem test_wf_wr8 : ¬ WellFormed (.wr8 (.buffer .label) 1024) := by decide
theorem test_wf_wr16 : ¬ WellFormed (.wr16 .reserved6 1025) := by decide
theorem test_wf_wr32 : ¬ WellFormed (.wr32 .reserved7 262144) := by decide

/-! ### Words written out field by field from R70: reserved, OFFSET, reserved, BUF, OP -/

theorem test_decode_rd8 :
    decode (0#14 ++ 0b1000111111#10 ++ 0#1 ++ 0b000#3 ++ 0b0001#4 : BitVec 32)
      = .ok (.rd8 (.buffer .rx) 575) := by decide

theorem test_decode_rd16 :
    decode (0#14 ++ 0b0000110000#10 ++ 0#1 ++ 0b001#3 ++ 0b0010#4 : BitVec 32)
      = .ok (.rd16 (.buffer .tx) 48) := by decide

theorem test_decode_rd32 :
    decode (0#14 ++ 0b1000000100#10 ++ 0#1 ++ 0b101#3 ++ 0b0011#4 : BitVec 32)
      = .ok (.rd32 (.buffer .entry) 516) := by decide

theorem test_decode_wr8 :
    decode (0#14 ++ 0b0000000000#10 ++ 0#1 ++ 0b100#3 ++ 0b0101#4 : BitVec 32)
      = .ok (.wr8 (.buffer .stats) 0) := by decide

theorem test_decode_wr16 :
    decode (0#14 ++ 0b0000000001#10 ++ 0#1 ++ 0b010#3 ++ 0b0110#4 : BitVec 32)
      = .ok (.wr16 (.buffer .label) 1) := by decide

theorem test_decode_wr32 :
    decode (0#14 ++ 0b0000011101#10 ++ 0#1 ++ 0b011#3 ++ 0b0111#4 : BitVec 32)
      = .ok (.wr32 (.buffer .enc) 29) := by decide

theorem test_decode_encname :
    decode (0#14 ++ 0#10 ++ 0#1 ++ 0#3 ++ 0b1000#4 : BitVec 32) = .ok .encname := by decide

theorem test_decode_buildreq :
    decode (0#14 ++ 0#10 ++ 0#1 ++ 0#3 ++ 0b1001#4 : BitVec 32) = .ok .buildreq := by decide

theorem test_decode_parseresp :
    decode (0#14 ++ 0#10 ++ 0#1 ++ 0#3 ++ 0b1010#4 : BitVec 32) = .ok .parseresp := by decide

/-- 95_test_vectors.md section 2.1: the words that are malformed on their own bits. -/
theorem test_decode_rejects :
    [0x00000000#32, 0x00000004#32, 0x0000000B#32, 0x0000000F#32, 0x00000080#32, 0x00000081#32,
        0x00040001#32, 0x80000001#32, 0x00000018#32, 0x00000108#32].all rejected = true := by decide

/-- 30_encoding.md R79 and 95_test_vectors.md sections 2.2, 2.3, 3: the encoder's words. -/
theorem test_encode_words :
    encode (.rd8 (.buffer .rx) 1023) = 0x0003FF01#32 ∧ encode (.rd16 (.buffer .tx) 49) = 0x00003112#32
      ∧ encode (.rd32 (.buffer .stats) 43) = 0x00002B43#32 ∧ encode (.wr8 (.buffer .rx) 136) = 0x00008805#32
      ∧ encode (.wr16 (.buffer .entry) 0) = 0x00000056#32
      ∧ encode (.wr32 (.buffer .label) 12) = 0x00000C27#32 := by decide

/-- A table row's bits, and a number past one word. -/
theorem test_decodeTableWord :
    decodeTableWord 32 0x00002C02 = some (.rd16 (.buffer .rx) 44)
      ∧ decodeTableWord 32 0x0000000B = none ∧ decodeTableWord 64 0x100000001 = none := by decide

/-! ### One step of each command: 95_test_vectors.md sections 2.2 to 2.7 and P3 -/

theorem test_rd8_last_byte :
    statusData (.rd8 (.buffer .rx) 575) codecBlock = some (0x00000002#32, 0x00000011#32) := by
  decide +kernel

theorem test_rd8_past_end :
    statusData (.rd8 (.buffer .rx) 576) codecBlock = some (0x00000202#32, 0xA5A5A5A5#32) := by
  decide +kernel

theorem test_rd16_odd_index :
    statusData (.rd16 (.buffer .rx) 3) codecBlock = some (0x00000002#32, 0x00003344#32) := by
  decide +kernel

theorem test_rd16_past_end :
    statusData (.rd16 (.buffer .tx) 49) codecBlock = some (0x00000202#32, 0xA5A5A5A5#32) := by
  decide +kernel

theorem test_rd32_big_endian :
    statusData (.rd32 (.buffer .rx) 1) codecBlock = some (0x00000002#32, 0x11223344#32) := by
  decide +kernel

theorem test_rd32_last_entry_word :
    statusData (.rd32 (.buffer .entry) 516) codecBlock = some (0x00000002#32, 0x00000000#32)
      ∧ statusData (.rd32 (.buffer .entry) 517) codecBlock = some (0x00000202#32, 0xA5A5A5A5#32) := by
  decide +kernel

theorem test_wr8_low_byte :
    (nextOf (exec (.wr8 (.buffer .label) 0) storeBlock)).map
      (fun t => (t.statusWord, t.data, t.bufs.label)) = some (0x2#32, 0x12345678#32, [(0, 0x78)]) := by
  decide +kernel

theorem test_wr8_read_only :
    (nextOf (exec (.wr8 (.buffer .stats) 0) storeBlock)).map (fun t => (t.statusWord, t.bufs))
      = some (0x202#32, storeBlock.bufs) := by decide +kernel

theorem test_wr16_big_endian :
    (nextOf (exec (.wr16 (.buffer .label) 0) storeBlock)).map (fun t => t.bufs.label)
      = some [(0, 0x56), (1, 0x78)] := by decide +kernel

theorem test_wr16_reserved_buffer :
    (nextOf (exec (.wr16 .reserved6 0) storeBlock)).map (fun t => (t.statusWord, t.bufs))
      = some (0x202#32, storeBlock.bufs) := by decide +kernel

theorem test_wr32_last_bytes :
    (nextOf (exec (.wr32 (.buffer .rx) 572) storeBlock)).map (fun t => (t.statusWord, t.bufs.rx))
      = some (0x2#32, [(572, 0x12), (573, 0x34), (574, 0x56), (575, 0x78)]) := by decide +kernel

theorem test_wr32_past_end :
    (nextOf (exec (.wr32 (.buffer .tx) 47) storeBlock)).map (fun t => (t.statusWord, t.bufs))
      = some (0x202#32, storeBlock.bufs) := by decide +kernel

/-- "EGEJEMEFFDEFFCFGEFFCCACACACACACA" and the terminator (section 2.4). -/
theorem test_encname_fileserver :
    (nextOf (exec .encname (blockWith [] (cells 0 fileserver) 0 0 0))).map (fun t => t.bufs.enc)
      = some (cells 0
          ([0x45, 0x47, 0x45, 0x4A, 0x45, 0x4D, 0x45, 0x46, 0x46, 0x44, 0x45, 0x46, 0x46, 0x43, 0x46, 0x47]
            ++ [0x45, 0x46, 0x46, 0x43, 0x43, 0x41, 0x43, 0x41, 0x43, 0x41, 0x43, 0x41, 0x43, 0x41, 0x43, 0x41]
            ++ [0x00])) := by decide +kernel

/-- The letters of section 2.4's single bytes. -/
theorem test_half_ascii :
    (haHi 0x2A, haLo 0x2A) = (0x43#8, 0x4B#8) ∧ (haHi 0x7F, haLo 0x7F) = (0x48#8, 0x50#8)
      ∧ (haHi 0xFF, haLo 0xFF) = (0x50#8, 0x50#8) := by decide

/-- S3's request for TXID 0x1234 (section 1). -/
theorem test_buildreq_1234 :
    (nextOf (exec .buildreq (blockWith [] [] 0 0 0x1234))).map (fun t => (t.statusWord, t.bufs.tx))
      = some (0x2#32, cells 0
          ([0x12, 0x34, 0x00, 0x00, 0x00, 0x01, 0x00, 0x00, 0x00, 0x00, 0x00, 0x00, 0x20, 0x43, 0x4B]
            ++ List.replicate 30 0x41 ++ [0x00, 0x00, 0x21, 0x00, 0x01])) := by decide +kernel

/-- P3: STATUS, the result registers, STATS and the two ENTRY records (section 3). -/
theorem test_parseresp_p3 :
    (nextOf (exec .parseresp (p3Block 137))).map
        (fun t => (t.statusWord, t.res, t.bytes .stats 0 6, t.bytes .entry 0 60))
      = some (0x0000000A#32,
          ⟨0x12348400, 0x00000001, 0x00000000, 0x00000021, 0x00210001, 0x00000000, 0x00020053,
            0xAABBCCDD, 0x0000EEFF⟩,
          [0xAA, 0xBB, 0xCC, 0xDD, 0xEE, 0xFF],
          [0x57, 0x4F, 0x52, 0x4B, 0x53, 0x54, 0x41, 0x54, 0x49, 0x4F, 0x4E, 0x20, 0x20, 0x20, 0x20]
            ++ [0x00, 0x00, 0x20, 0x04, 0x00] ++ fileserver ++ [0x00, 0x20, 0x04, 0x00]
            ++ List.replicate 20 0x00) := by decide +kernel

/-- The three gates, in their order (V-P3, V-P7, V-P9, V-P10, V-P11 of section 2.7). -/
theorem test_parseresp_gates :
    ([gateBlock 0x21 0 102, gateBlock 0x21 0 577, gateBlock 0x20 0 101, gateBlock 0x20 0 600,
        gateBlock 0x20 0 50].map fun s => (nextOf (exec .parseresp s)).map State.statusWord)
      = [some 0x00005402#32, some 0x00001402#32, some 0x00003402#32, some 0x00001402#32,
          some 0x00003402#32] := by decide +kernel

/-- Section 2.6, the rows that tell every field apart. -/
theorem test_flag_views :
    hfw 0x8500#16 = 0x000000A1#32 ∧ hfw 0x0010#16 = 0x00000200#32 ∧ hfw 0x7800#16 = 0x0000001E#32
      ∧ hfw 0x840F#16 = 0x00003C21#32 ∧ hfw 0x0060#16 = 0x0000C000#32
      ∧ efw 0x6400#16 = 0x00266400#32 ∧ efw 0xC400#16 = 0x0025C400#32 ∧ efw 0x2600#16 = 0x00622600#32
      ∧ efw 0x1C00#16 = 0x00381C00#32 ∧ efw 0x05FF#16 = 0xFFA005FF#32 := by decide

/-- R132's fields fill the 46 bytes of STATS (R57). -/
theorem test_stats_fields_tile :
    (statsFields.map StatsField.width).sum = 46
      ∧ (statsFields.getLast?.map fun f => f.offset + f.width) = some 46 := by decide

/-! ### The host interface: 95_test_vectors.md section 2.8 -/

theorem test_host_reads_at_reset :
    answer (facingRead .idle 0x04) = some 0 ∧ answer (facingRead .idle 0x38) = some 0
      ∧ answer (facingRead .idle 0x00) = some 0 := by decide +kernel

theorem test_host_bus_errors :
    faultOf (step (facing .idle (.access ⟨.read, 16, 0x04⟩))) = some .busError
      ∧ faultOf (step (facing .idle (.access ⟨.read, 32, 0x06⟩))) = some .busError
      ∧ faultOf (step (facingWrite .idle 0x80 0)) = some .busError := by decide

/-- A write of RXLEN keeps bits 15:0; a write of STATUS is ignored. -/
theorem test_host_writes :
    (nextOf (step (facingWrite .idle 0x0C 0xFFFFFFFF))).map (fun t => t.regValue .rxlen)
        = some 0x0000FFFF#32
      ∧ (nextOf (step (facingWrite .idle 0x04 0xFFFFFFFF))).map State.statusWord = some 0#32 := by
  decide +kernel

/-- Acceptance of BUILDREQ, a dropped write of DATA, completion, and the next acceptance. -/
theorem test_host_busy_and_ovr :
    (nextOf (step (facingWrite .idle 0x00 0x00000009))).map State.statusWord = some 0x00000001#32
      ∧ (nextOf (step (facingWrite .busy 0x08 5))).map (fun t => (t.statusWord, t.data))
        = some (0x00000005#32, 0#32)
      ∧ ((nextOf (step (facingWrite .busy 0x08 5))).bind fun t => nextOf (step t)).map State.statusWord
        = some 0x00000006#32
      ∧ (nextOf (step { facingWrite .idle 0x00 0x00000009 with status := ⟨true, true, false, 0, 0⟩ })).map
          State.statusWord = some 0x00000001#32 := by decide +kernel

/-- A WAIT reads until BUSY = 0 (R80): once from an idle block; from a busy one it goes on. -/
theorem test_wait :
    (nextOf (step (facing .idle (.wait 3)))).map (fun t => (t.reply, t.schedule)) = some (some 0#32, [])
      ∧ (nextOf (step (facing .busy (.wait 3)))).map (fun t => (t.reply, t.schedule))
        = some (some 1#32, [.wait 2])
      ∧ (nextOf (step (facing .busy (.wait 0)))).map (fun t => (t.reply, t.schedule))
        = some (some 1#32, [.engine, .wait 0]) := by decide +kernel

/-- PUTB's expansion (R80), and lines with different numbers of busy reads. -/
theorem test_listing_turns :
    Line.turns 0 (.putb (.buffer .rx) 136 0x7F)
        = [writeTurn .data 0x7F#32, writeTurn .cmd 0x00008805#32, .engine, .wait 0]
      ∧ listingTurns [(2, .wait), (0, .set .txid 0xBEEF), (1, .command .buildreq), (0, .get .data)]
        = [.wait 1, writeTurn .txid 0xBEEF#32, writeTurn .cmd 0x00000009#32, .wait 0, readTurn .data] := by
  decide

/-- The very next step runs the command that `withFetchWord` places (P1's first read of TX). -/
theorem test_withFetchWord :
    (nextOf (step (State.reset.withFetchWord 32 0x00000041))).map (fun t => (t.statusWord, t.data))
        = some (0x2#32, 0#32)
      ∧ (nextOf (step (State.reset.withFetchWord 32 0x0000000B))).map State.statusWord
        = some 0x202#32 := by decide +kernel

/-- Reset in the middle of a command leaves STATUS 0 and a bus error for the host until release (R148,
R152). -/
theorem test_reset_line :
    (nextOf (step (facing .busy (.resetLine true)))).map (fun t => (t.statusWord, t.inReset))
        = some (0#32, true)
      ∧ faultOf (step { facingRead .idle 0x04 with inReset := true }) = some .busErrorInReset := by
  decide +kernel

/-! ### The hypotheses of the statements can be met -/

theorem witness_EncodedCommandDecodesBack :
    WellFormed (.rd32 (.buffer .entry) 516) ∧ WellFormed (.wr8 .reserved7 1023)
      ∧ WellFormed (.rd8 (.buffer .rx) 0) ∧ WellFormed .parseresp := by decide

theorem witness_DecodedWordEncodesBack :
    decode 0x0003FF67#32 = .ok (.wr32 .reserved6 1023) ∧ decode 0x0000000A#32 = .ok .parseresp := by
  decide

theorem witness_DecodingFollowsMatchMaskTable :
    (∃ r ∈ opcodeTable, 0x0003FF67#32 &&& r.mask = r.matchWord)
      ∧ ∀ r ∈ opcodeTable, 0x00000018#32 &&& r.mask ≠ r.matchWord := by decide

/-- Each item of R76's list, at a boundary, and a word that is not malformed. -/
theorem witness_MalformedWordsFailClosed :
    (facingEngine .busy 0x00040001).engine.state = .busy
      ∧ (facingWrite .idle 0x00 0x00040001).engine.state = .idle ∧ MalformedWord 0x00040001#32
      ∧ MalformedWord 0x00000081#32 ∧ MalformedWord 0x00000000#32 ∧ MalformedWord 0x00000004#32
      ∧ MalformedWord 0x0000000B#32 ∧ MalformedWord 0x00000018#32 ∧ MalformedWord 0x00000108#32
      ∧ MalformedWord 0x00000061#32 ∧ MalformedWord 0x00000045#32 ∧ MalformedWord 0x00024001#32
      ∧ ¬ MalformedWord 0x00023F01#32 ∧ ¬ MalformedWord 0x00000041#32 := by
  refine ⟨rfl, rfl, ?_, ?_, ?_, ?_, ?_, ?_, ?_, ?_, ?_, ?_, ?_, ?_⟩ <;>
    unfold MalformedWord MalformedFields sizeByNumber widthByNumber <;> decide

theorem witness_Rd8LoadsOneByte :
    575 + 1 ≤ bufferSize .rx ∧ bufferSize .rx < 576 + 1 ∧ 32 + 1 ≤ bufferSize .enc := by decide

theorem witness_Rd16LoadsTwoBytes :
    48 + 2 ≤ bufferSize .tx ∧ bufferSize .tx < 49 + 2 := by decide

theorem witness_Rd32LoadsFourBytes :
    516 + 4 ≤ bufferSize .entry ∧ bufferSize .entry < 517 + 4 ∧ 42 + 4 ≤ bufferSize .stats := by decide

theorem witness_Wr8StoresOneByte :
    Buffer.rx ≠ .stats ∧ Buffer.rx ≠ .entry ∧ 575 + 1 ≤ bufferSize .rx ∧ bufferSize .rx < 576 + 1 := by
  decide

theorem witness_Wr16StoresTwoBytes :
    Buffer.label ≠ .stats ∧ Buffer.label ≠ .entry ∧ 14 + 2 ≤ bufferSize .label
      ∧ bufferSize .label < 15 + 2 := by decide

theorem witness_Wr32StoresFourBytes :
    Buffer.tx ≠ .stats ∧ Buffer.tx ≠ .entry ∧ 46 + 4 ≤ bufferSize .tx ∧ bufferSize .tx < 47 + 4 := by
  decide

theorem witness_WriteThenReadReturnsValue :
    Buffer.enc ≠ .stats ∧ Buffer.enc ≠ .entry ∧ 32 + 1 ≤ bufferSize .enc ∧ 31 + 2 ≤ bufferSize .enc
      ∧ 29 + 4 ≤ bufferSize .enc := by decide

theorem witness_MixedWidthReadsSeeTheSameBytes :
    574 + 2 ≤ bufferSize .rx ∧ 572 + 4 ≤ bufferSize .rx ∧ Buffer.rx ≠ .stats ∧ Buffer.rx ≠ .entry
      ∧ (blockWith [] [] 0x11223344 0 0).engine.d = 0x11223344#32 := by decide

/-- Two labels that agree, and one that does not. -/
theorem witness_EncoderLaws :
    (∀ k, k < 16 → (blockWith [] (cells 0 fileserver) 0 0 0).byte .label k
        = (blockWith [] (cells 0 fileserver) 1 0 0).byte .label k)
      ∧ (blockWith [] (cells 0 fileserver) 0 0 0).byte .label 15
        ≠ (blockWith [] (cells 0 (List.replicate 16 0xFF)) 0 0 0).byte .label 15 := by decide +kernel

theorem witness_RequestReadsBack :
    (blockWith [] (cells 0 (0x2A :: List.replicate 15 0x00)) 0 0 0).byte .label 0 = 0x2A#8
      ∧ ∀ k, 1 ≤ k → k < 16 →
        (blockWith [] (cells 0 (0x2A :: List.replicate 15 0x00)) 0 0 0).byte .label k = 0x00#8 := by
  have h : ∀ k, k < 16 → 1 ≤ k →
      (blockWith [] (cells 0 (0x2A :: List.replicate 15 0x00)) 0 0 0).byte .label k = 0x00#8 := by
    decide +kernel
  exact ⟨by decide +kernel, fun k h1 h2 => h k h2 h1⟩

/-- The TX of a BUILDREQ with TXID 0x1234, as 95_test_vectors.md section 2.5 moves it into RX. -/
theorem witness_RequestIsNoResponse :
    ∃ r q s : State, exec .buildreq r = .next q ∧ (∀ i, i < 50 → s.byte .rx i = q.byte .tx i)
      ∧ s.engine.len.toNat ≤ 50 := by
  refine ⟨blockWith [] [] 0 0 0x1234, _,
    blockWith (cells 0 (requestHeader 0x1234 ++ requestQuestion)) [] 0 50 0, rfl, ?_, by decide⟩
  decide +kernel

theorem witness_HeaderFlagsView : hfw 0x8500#16 = hfw 0x8500#16 := rfl

/-- A datagram that succeeds, and one for each gate. -/
theorem witness_ParserespOutcome :
    ([p3Block 137, p3Block 577, gateBlock 0x20 0 101, p3Block 138].map fun s =>
        (nextOf (exec .parseresp s)).map fun t => (t.status.err, t.status.gate))
      = [some (0, 0), some (4, 1), some (4, 3), some (4, 5)] := by decide +kernel

/-- P3's datagram, the shortest response and the longest. -/
theorem witness_ParserespCommitsTheResponse :
    ParseSucceeds (p3Block 137) ∧ ParseSucceeds (gateBlock 0x21 0 101)
      ∧ ParseSucceeds (gateBlock 0x21 26 569) := by
  unfold ParseSucceeds
  decide +kernel

/-- One failing state for each gate. -/
theorem witness_ParserespFailureClears :
    ¬ ParseSucceeds (p3Block 577) ∧ ¬ ParseSucceeds (gateBlock 0x20 0 101)
      ∧ ¬ ParseSucceeds (p3Block 138) ∧ ¬ ParseSucceeds (gateBlock 0x21 27 587) := by
  unfold ParseSucceeds
  decide +kernel

theorem witness_ShortResponseFails :
    ((gateBlock 0x21 0 100).engine.len.toNat < 101 ∧ (gateBlock 0x21 0 100).read16 .rx 44 = 0x0021#16)
      ∧ ((gateBlock 0x20 0 0).engine.len.toNat < 101
        ∧ (gateBlock 0x20 0 0).read16 .rx 44 ≠ 0x0021#16) := by decide +kernel

/-- ShortResponseFails's last clause: two states that differ from index 55 on alone. -/
theorem witness_ShortResponseFails_tail :
    let s := gateBlock 0x20 0 0
    let m := Memory.insert s.bufs.rx 55 0x55
    (∀ i, i < 55 → State.byte { s with bufs := { s.bufs with rx := m } } .rx i = s.byte .rx i)
      ∧ m ≠ s.bufs.rx := by
  refine ⟨fun i hi => ?_, by decide⟩
  have hl := Memory.lookup_insert_ne (gateBlock 0x20 0 0).bufs.rx 0x55 (show i ≠ 55 by omega)
  simp only [State.byte, Buffers.get]
  rw [hl]

/-- The longest response passes gates 1 and 5. -/
theorem witness_GatesSixAndEightUnreachable : ParseSucceeds (gateBlock 0x21 26 569) := by
  unfold ParseSucceeds
  decide +kernel

/-- Two states that differ in the skipped name alone (R114). -/
theorem witness_ParserespReadExtent :
    let s := gateBlock 0x21 0 101
    let m := Memory.insert s.bufs.rx 12 0x55
    (∀ i, s.engine.len.toNat ≤ 576 →
      (i < 12 ∨ (44 ≤ i ∧ i ≤ 54) ∨ (55 ≤ i ∧ i < s.engine.len.toNat ∧ ParseSucceeds s)) →
      State.byte { s with bufs := { s.bufs with rx := m } } .rx i = s.byte .rx i) ∧ m ≠ s.bufs.rx := by
  refine ⟨fun i _ hi => ?_, by decide⟩
  have hne : i ≠ 12 := by omega
  have hl := Memory.lookup_insert_ne (gateBlock 0x21 0 101).bufs.rx 0x55 hne
  simp only [State.byte, Buffers.get]
  rw [hl]

/-- A host read, and a command that is no PARSERESP. -/
theorem witness_OnlyParserespWritesTheResult :
    (∃ t, step (facingRead .idle 0x34) = .next t)
      ∧ ¬ CompletesNext (facingRead .idle 0x34) ∧ ¬ ResetNext (facingRead .idle 0x34)
      ∧ (∃ t, step (facingEngine .busy 0x00000008) = .next t)
      ∧ ¬ decode (facingEngine .busy 0x00000008).engine.cw = .ok .parseresp
      ∧ ¬ ResetNext (facingEngine .busy 0x00000008) := by
  refine ⟨⟨_, rfl⟩, ?_, ?_, ⟨_, rfl⟩, by decide, ?_⟩
  · rintro ⟨-, h⟩
    cases h
  · rintro ⟨on, rest, h⟩
    cases h
  · rintro ⟨on, rest, h⟩
    cases h

/-- A gate that is not 0, as the third clause asks. -/
theorem witness_EveryAcceptedCommandCompletes :
    (p3Block 138).engine.state = .busy ∧ (facingEngine .busy 0x0000000B).engine.state = .busy := by
  decide

theorem witness_StepRunsTheLatchedCommand :
    EngineNext (facingEngine .busy 0x00000009) ∧ EngineNext State.reset
      ∧ decode (facingEngine .busy 0x00000009).engine.cw = .ok .buildreq
      ∧ decode (facingEngine .busy 0x0000000B).engine.cw = .error .reservedOp
      ∧ (facingEngine .busy 0x00000009).engine.state = .busy
      ∧ (facingEngine .idle 0x00000009).engine.state = .idle :=
  ⟨.inr ⟨[], rfl⟩, .inl rfl, by decide, by decide, rfl, rfl⟩

/-- The last legal offset, the first that is not, and a legal access in reset. -/
theorem witness_StepStopsOnlyOnBadAccess :
    (∃ t, step (facingRead .idle 0x7C) = .next t) ∧ step (facingRead .idle 0x80) = .fault .busError
      ∧ step { facingRead .idle 0x7C with inReset := true } = .fault .busErrorInReset
      ∧ (∃ t, step (facing .busy (.wait 0)) = .next t)
      ∧ step { facing .busy (.wait 0) with inReset := true } = .fault .busErrorInReset :=
  ⟨⟨_, rfl⟩, rfl, rfl, ⟨_, rfl⟩, rfl⟩

theorem witness_BusyEngineCompletesInBoundedSteps :
    (facingWrite .busy 0x00 9).engine.state = .busy ∧ (facingWrite .busy 0x00 9).inReset = false
      ∧ QuietSchedule (facingWrite .busy 0x00 9) := by
  refine ⟨rfl, rfl, fun t h => ?_⟩
  obtain rfl : t = .access ⟨.write 9, 32, 0x00⟩ := by simpa [facingWrite, facing] using h
  exact .inr (.inr ⟨_, rfl, rfl, rfl, by decide⟩)

/-- A schedule of a WAIT alone. -/
theorem witness_BusyEngineCompletesInBoundedSteps_wait :
    QuietSchedule (facing .busy (.wait 3)) ∧ (facing .busy (.wait 3)).engine.state = .busy := by
  refine ⟨fun t h => ?_, rfl⟩
  obtain rfl : t = .wait 3 := by simpa [facing] using h
  exact .inr (.inl ⟨3, rfl⟩)

/-- A WAIT at an idle block and at a busy one, without and with busy reads. -/
theorem witness_WaitReadsStatusUntilIdle :
    (facing .idle (.wait 3)).schedule = .wait 3 :: []
      ∧ (facing .idle (.wait 3)).schedule = waitTurns 4 ++ []
      ∧ (facing .busy (.wait 0)).schedule = waitTurns 1 ++ []
      ∧ ({ facing .busy .engine with schedule := waitTurns 0 } : State).schedule = waitTurns 0 ++ []
      ∧ (facing .idle (.wait 3)).engine.state = .idle ∧ (facing .busy (.wait 0)).engine.state = .busy
      ∧ (facing .busy (.wait 0)).inReset = false := by decide

theorem witness_CommandLineRunsItsCommand :
    WellFormed (.rd8 (.buffer .rx) 1023)
      ∧ ({ State.reset with schedule := Line.turns 0 (.command (.rd8 (.buffer .rx) 1023)) } : State).schedule
        = Line.turns 0 (.command (.rd8 (.buffer .rx) 1023)) ++ []
      ∧ ({ State.reset with schedule := Line.turns 2 (.command .encname) } : State).schedule
        = Line.turns 2 (.command .encname) ++ [] := by decide

theorem witness_PutLineStoresTheWord :
    Buffer.rx ≠ .stats ∧ Buffer.rx ≠ .entry ∧ 572 + 4 ≤ bufferSize .rx
      ∧ ({ State.reset with schedule := Line.turns 3 (.put (.buffer .rx) 572 0x12348400) } : State).schedule
        = Line.turns 3 (.put (.buffer .rx) 572 0x12348400)
      ∧ ({ State.reset with schedule := Line.turns 3 (.put (.buffer .rx) 572 0x12348400) } : State).engine.state
        = .idle := by decide

/-- Legal at 0x7C; not legal at 0x80, at 0x7E, and with 16 bits. -/
theorem witness_BadAccessIsABusError :
    (facingRead .idle 0x7C).inReset = false ∧ (32 = 32 ∧ 0x7C % 4 = 0 ∧ 0x7C ≤ 0x7C)
      ∧ ¬ (32 = 32 ∧ 0x80 % 4 = 0 ∧ 0x80 ≤ 0x7C) ∧ ¬ (32 = 32 ∧ 0x7E % 4 = 0 ∧ 0x7E ≤ 0x7C)
      ∧ ¬ (16 = 32 ∧ 0x04 % 4 = 0 ∧ 0x04 ≤ 0x7C) := by decide

/-- The first and the last reserved offset; a write to them while BUSY. -/
theorem witness_ReservedOffsetsAndBits :
    (∀ off ∈ [0x38, 0x7C], off % 4 = 0 ∧ 0x38 ≤ off ∧ off ≤ 0x7C)
      ∧ (facingRead .idle 0x38).inReset = false ∧ (facingRead .idle 0x38).engine.state = .idle
      ∧ (facingRead .busy 0x7C).engine.state = .busy
      ∧ (facingWrite .busy 0x7C 1).schedule = [.access ⟨.write 1, 32, 0x7C⟩] := by decide

theorem witness_AcceptanceLatchesTheCommand :
    (facingWrite .idle 0x00 9).inReset = false ∧ (facingWrite .idle 0x00 9).engine.state = .idle
      ∧ (facingWrite .idle 0x00 9).schedule = [.access ⟨.write 9, 32, 0x00⟩]
      ∧ (facingWrite .busy 0x00 9).engine.state = .busy
      ∧ (facingRead .idle 0x00).schedule = [.access ⟨.read, 32, 0x00⟩] := by decide

theorem witness_StatusFieldsAndRead :
    (facingRead .busy 0x04).inReset = false
      ∧ (facingRead .busy 0x04).schedule = [.access ⟨.read, 32, 0x04⟩]
      ∧ (facingRead .busy 0x04).statusWord = 0x00000001#32 := by decide +kernel

/-- Each writable offset, and reads at both ends of the map and of STATUS. -/
theorem witness_AccessesWhileBusy :
    (∀ off ∈ [0x00, 0x08, 0x0C, 0x10], (facingWrite .busy off 5).schedule
        = [.access ⟨.write 5, 32, off⟩] ∧ (facingWrite .busy off 5).engine.state = .busy)
      ∧ (∀ off ∈ [0x00, 0x08, 0x34], (facingRead .busy off).inReset = false
        ∧ off % 4 = 0 ∧ off ≤ 0x34 ∧ off ≠ 0x04)
      ∧ (facingRead .busy 0x04).schedule = [.access ⟨.read, 32, 0x04⟩] := by decide

theorem witness_ReadOnlyWritesAreIgnored :
    ∀ off ∈ [0x04, 0x14, 0x34], (facingWrite .busy off 1).inReset = false ∧ off % 4 = 0
      ∧ (off = 0x04 ∨ (0x14 ≤ off ∧ off ≤ 0x34))
      ∧ (facingWrite .busy off 1).schedule = [.access ⟨.write 1, 32, off⟩] := by decide

theorem witness_OperandRegistersReadBack :
    ∀ off ∈ [0x08, 0x0C, 0x10], (facingWrite .idle off 0xFFFFFFFF).inReset = false
      ∧ (facingWrite .idle off 0xFFFFFFFF).engine.state = .idle
      ∧ (facingWrite .idle off 0xFFFFFFFF).schedule = [.access ⟨.write 0xFFFFFFFF, 32, off⟩]
      ∧ (facingRead .idle off).schedule = [.access ⟨.read, 32, off⟩] := by decide

theorem witness_ResultRegistersRead :
    ∀ off ∈ [0x14, 0x18, 0x1C, 0x20, 0x24, 0x28, 0x2C, 0x30, 0x34],
      (facingRead .idle off).inReset = false ∧ (facingRead .idle off).engine.state = .idle
        ∧ (facingRead .idle off).schedule = [.access ⟨.read, 32, off⟩] := by decide

/-- A dropped write, an acceptance that clears OVR, and a reset that does. -/
theorem witness_OvrRecordsDroppedWrites :
    DropsNext (facingWrite .busy 0x10 5) ∧ (∃ t, step (facingWrite .busy 0x10 5) = .next t)
      ∧ AcceptsNext (facingWrite .idle 0x00 9) ∧ (∃ t, step (facingWrite .idle 0x00 9) = .next t)
      ∧ ResetNext (facing .busy (.resetLine true))
      ∧ (∃ t, step { facing .busy (.resetLine true) with status := ⟨false, true, false, 0, 0⟩ } = .next t
        ∧ t.status.ovr = false) :=
  ⟨⟨_, _, _, rfl, by decide, rfl⟩, ⟨_, rfl⟩, ⟨_, _, rfl, rfl⟩, ⟨_, rfl⟩, ⟨_, _, rfl⟩, ⟨_, rfl, rfl⟩⟩

/-- An acceptance, a completion, and a reset of a busy block. -/
theorem witness_BusyAndDoneFollowTheCommand :
    (∃ t, step (facingWrite .idle 0x00 9) = .next t ∧ t.engine.state = .busy)
      ∧ AcceptsNext (facingWrite .idle 0x00 9)
      ∧ (∃ t, step (facingEngine .busy 0x00000009) = .next t ∧ t.status.done = true)
      ∧ CompletesNext (facingEngine .busy 0x00000009)
      ∧ (∃ t, step (facing .busy (.resetLine true)) = .next t ∧ t.engine.state = .idle) :=
  ⟨⟨_, rfl, rfl⟩, ⟨_, _, rfl, rfl⟩, ⟨_, rfl, rfl⟩, ⟨.inr ⟨_, rfl⟩, rfl⟩, ⟨_, rfl, rfl⟩⟩

theorem witness_ReleasedResetValues :
    ({ facing .busy (.resetLine false) with inReset := true } : State).schedule = [.resetLine false]
      ∧ ({ facing .busy (.resetLine false) with inReset := true } : State).inReset = true := by decide

theorem witness_ResetLineAndAccesses :
    ({ facingRead .idle 0x04 with inReset := true } : State).schedule = [.access ⟨.read, 32, 0x04⟩]
      ∧ (facing .idle (.wait 0)).schedule = [.wait 0]
      ∧ (facing .busy (.resetLine true)).schedule = [.resetLine true]
      ∧ (∃ t, step (facingEngine .busy 0x00000009) = .next t)
      ∧ ¬ ResetNext (facingEngine .busy 0x00000009) := by
  refine ⟨rfl, rfl, rfl, ⟨_, rfl⟩, ?_⟩
  rintro ⟨on, rest, h⟩
  cases h

theorem witness_ResetAbandonsTheCommand :
    ({ facing .busy .engine with schedule := [.resetLine true, .resetLine false, .engine] } : State).engine.state
        = .busy
      ∧ ({ facing .busy .engine with schedule := [.resetLine true, .resetLine false, .engine] } : State).schedule
        = .resetLine true :: .resetLine false :: [.engine] := by decide

/-- P3's block: RX lists 137 bytes, and the engine's turn comes. -/
theorem witness_BuffersStayCanonical :
    BuffersInv (p3Block 137) ∧ ∃ t, step (p3Block 137) = .next t := by
  refine ⟨?_, _, rfl⟩
  unfold BuffersInv
  decide +kernel

/-- STATUS after reset, and the codes of a failed parse in a block that holds no result. -/
theorem witness_StatusStaysLegal :
    StatusInv (facingEngine .busy 0x00000009)
      ∧ StatusInv { facingRead .idle 0x04 with status := ⟨true, false, false, 4, 5⟩ }
      ∧ (∃ t, step (facingEngine .busy 0x00000009) = .next t)
      ∧ ∃ t, step { facingRead .idle 0x04 with status := ⟨true, false, false, 4, 5⟩ } = .next t := by
  refine ⟨⟨.inl ⟨rfl, rfl⟩, fun _ => ⟨rfl, rfl⟩, fun h => ?_, fun h => ?_, by decide, by decide⟩,
    ⟨.inr (.inr ⟨rfl, .inr (.inr rfl)⟩), fun h => ?_, fun _ h => ?_, fun _ => rfl, by decide, by decide⟩,
    ⟨_, rfl⟩, ⟨_, rfl⟩⟩
  · cases h
  · cases h
  · cases h
  · cases h

/-- V-P1's result, a response without entries, held while the host reads STATUS. -/
def heldBlock : State :=
  { facingRead .idle 0x04 with
    status := ⟨true, false, true, 0, 0⟩
    res := ⟨0x12348400, 0x00000001, 0, 0x00000021, 0x00210001, 0, 0x0000002F, 0xAABBCCDD, 0x0000EEFF⟩
    bufs := ⟨[], [], [], [], cells 0 [0xAA, 0xBB, 0xCC, 0xDD, 0xEE, 0xFF], []⟩ }

theorem witness_ResultStateStaysConsistent :
    ResultInv heldBlock ∧ heldBlock.status.resv = true ∧ (∃ t, step heldBlock = .next t)
      ∧ ResultInv (facingEngine .busy 0x0000000A) := by
  refine ⟨⟨fun _ => ?_, fun h => ?_⟩, rfl, ⟨_, rfl⟩, ⟨fun h => ?_, fun _ => ?_⟩⟩
  · exact ⟨by decide +kernel, by decide +kernel, by decide +kernel, by decide +kernel,
      by decide +kernel, by decide +kernel, by decide +kernel,
      fun k h => absurd h (by rw [show heldBlock.heldCount = 0 by decide +kernel]; omega),
      fun _ _ => rfl⟩
  · cases h
  · cases h
  · exact ⟨rfl, rfl, rfl, rfl, rfl, rfl, rfl, rfl, rfl, fun _ => rfl, fun _ => rfl, rfl⟩

/-- A block held in reset, with its release and an engine turn to come. -/
theorem witness_ResetValuesAreHeld :
    ResetInv { State.reset with inReset := true, schedule := [.engine, .resetLine false] }
      ∧ ∃ t, step { State.reset with inReset := true, schedule := [.engine, .resetLine false] } = .next t :=
  ⟨fun _ => ⟨rfl, rfl, rfl, rfl, rfl,
    ⟨rfl, rfl, rfl, rfl, rfl, rfl, rfl, rfl, rfl, fun _ => rfl, fun _ => rfl, rfl⟩⟩, _, rfl⟩

end Sys2Proof.Tests
end

section
/-! The lengths of R9 (00_scope.md): the derived constants, and how many entries the ceiling leaves room for. -/

namespace Sys2Proof.Proofs

open Sys2Proof Sys2Proof.Machine

/-- The ceiling of R8 leaves 576 - 101 = 475 bytes for entries of 18 bytes each: room for 26. -/
theorem respLen_le_rxCap_iff (n : Nat) : Config.respLen n ≤ Config.rxCap ↔ n ≤ 26 := by
  rw [Config_respLen, show Config.rxCap = 576 from rfl]
  omega

/-- Settles O22: every length is an instance of `Config_respLen`, and the largest count is
`respLen_le_rxCap_iff`. -/
theorem responseLengths : Obligations.ResponseLengths :=
  have entriesOff_eq : Config.entriesOff = 55 := rfl
  ⟨entriesOff_eq, Config_respLen, Config_respLen 26, Config_respLen 27, respLen_le_rxCap_iff⟩

end Sys2Proof.Proofs
end

section
/-! One host access of the register interface (R22, R24, R28, R49): what the step with an access next answers,
and what a legal write and a legal read do to an idle and to a busy block. -/

namespace Sys2Proof.Proofs

open Sys2Proof Sys2Proof.Machine

/-! ### What a write and a read do, idle and busy -/

theorem busy_eq_false {s : State} (hi : s.engine.state = .idle) : s.busy = false := by
  simp [State.busy, hi]

theorem hostWrite_writable_idle {off : Nat} {r : Reg} {s : State} (v : Word)
    (hoff : Reg.ofOffset off = some r) (hw : r.writable = true) (hi : s.engine.state = .idle) :
    hostWrite off v s = State.regWrite { s with reply := none } v r := by
  have hb : State.busy { s with reply := none } = false := busy_eq_false hi
  simp [hostWrite, hoff, hw, hb]

theorem hostWrite_writable_busy {off : Nat} {r : Reg} {s : State} (v : Word)
    (hoff : Reg.ofOffset off = some r) (hw : r.writable = true) (hs : s.engine.state = .busy) :
    hostWrite off v s = State.dropWrite { s with reply := none } := by
  have hb : State.busy { s with reply := none } = true := (State.busy_iff _).2 hs
  simp [hostWrite, hoff, hw, hb]

/-- A read of an idle block is exact at every offset, and it draws no free value. -/
theorem hostRead_idle {s : State} (off : Nat) (hi : s.engine.state = .idle) :
    hostRead off s = { s with reply := some (s.offsetValue off) } := by
  simp [hostRead, busy_eq_false hi]

/-! ### The step with a host access next -/

theorem step_access {s : State} {a : HostAccess} {rest : List Turn}
    (hs : s.schedule = .access a :: rest) : step s = hostAccess a { s with schedule := rest } := by
  unfold step
  rw [hs]

section
variable {s : State} {a : HostAccess} {rest : List Turn}
  (hs : s.schedule = .access a :: rest) (hr : s.inReset = false)
include hs hr

theorem step_access_legal (hl : a.legal = true) :
    step s = .next (accessResult a { s with schedule := rest }) := by
  rw [step_access hs]
  exact hostAccess_taken hr hl

theorem step_access_illegal (hl : ¬ a.legal = true) : step s = .fault .busError := by
  rw [step_access hs]
  exact hostAccess_illegal hr hl

end

section
variable {s : State} {off : Nat} {v : Word} {r : Reg} {rest : List Turn}

theorem step_write_idle (hs : s.schedule = .access ⟨.write v, 32, off⟩ :: rest)
    (hr : s.inReset = false) (hl : HostAccess.legal ⟨.write v, 32, off⟩ = true)
    (hoff : Reg.ofOffset off = some r) (hw : r.writable = true) (hi : s.engine.state = .idle) :
    step s = .next (State.regWrite { s with schedule := rest, reply := none } v r) := by
  rw [step_access_legal hs hr hl, next_inj]
  exact hostWrite_writable_idle (s := { s with schedule := rest }) v hoff hw hi

theorem step_write_busy (hs : s.schedule = .access ⟨.write v, 32, off⟩ :: rest)
    (hr : s.inReset = false) (hl : HostAccess.legal ⟨.write v, 32, off⟩ = true)
    (hoff : Reg.ofOffset off = some r) (hw : r.writable = true) (hb : s.engine.state = .busy) :
    step s = .next (State.dropWrite { s with schedule := rest, reply := none }) := by
  rw [step_access_legal hs hr hl, next_inj]
  exact hostWrite_writable_busy (s := { s with schedule := rest }) v hoff hw hb

theorem step_read_idle (hs : s.schedule = .access ⟨.read, 32, off⟩ :: rest)
    (hr : s.inReset = false) (hl : HostAccess.legal ⟨.read, 32, off⟩ = true)
    (hi : s.engine.state = .idle) :
    step s = .next { s with schedule := rest, reply := some (s.offsetValue off) } := by
  rw [step_access_legal hs hr hl, next_inj]
  exact hostRead_idle (s := { s with schedule := rest }) off hi

end

/-! ### The obligations -/

/-- Settles O40: `HostAccess.legal` is R22's condition, and out of reset it alone decides an access. -/
theorem badAccessIsABusError : Obligations.BadAccessIsABusError := by
  intro s a rest hs hr
  rw [← HostAccess.legal_iff]
  exact ⟨fun hl => ⟨_, step_access_legal hs hr hl⟩, step_access_illegal hs hr⟩

/-- Settles O42: each access is legal at CMD, the written records are `State.accept` and
`State.dropWrite`, and `State.regValue` of CMD is 0. -/
theorem acceptanceLatchesTheCommand : Obligations.AcceptanceLatchesTheCommand := by
  intro s w rest hr
  have cmd_offset : Reg.ofOffset 0x00 = some .cmd := rfl
  exact ⟨fun hs hi => step_write_idle hs hr rfl cmd_offset rfl hi,
    fun hs hb => step_write_busy hs hr rfl cmd_offset rfl hb,
    fun hs hi => step_read_idle hs hr rfl hi⟩

end Sys2Proof.Proofs
end

section
/-! The name encoder (R93, R95): the numbers of the half-ASCII letters, ENC after ENCNAME letter by letter, and
the laws of the encoding. -/

namespace Sys2Proof.Proofs

open Sys2Proof Sys2Proof.Machine

/-! ### The two letters of one byte (R93) -/

theorem haHi_toNat (b : Byte) : (haHi b).toNat = 0x41 + b.toNat / 16 := by
  have hb : b.toNat < 256 := b.isLt
  rw [haHi, BitVec.toNat_add, BitVec.toNat_ofNat, BitVec.toNat_setWidth, BitVec.extractLsb'_toNat,
    Nat.shiftRight_eq_div_pow]
  omega

theorem haLo_toNat (b : Byte) : (haLo b).toNat = 0x41 + b.toNat % 16 := by
  rw [haLo, BitVec.toNat_add, BitVec.toNat_ofNat, BitVec.toNat_setWidth, BitVec.extractLsb'_toNat,
    Nat.shiftRight_zero]
  omega

theorem haHi_range (b : Byte) : 0x41 ≤ (haHi b).toNat ∧ (haHi b).toNat ≤ 0x50 := by
  have hb : b.toNat < 256 := b.isLt
  rw [haHi_toNat]
  omega

theorem haLo_range (b : Byte) : 0x41 ≤ (haLo b).toNat ∧ (haLo b).toNat ≤ 0x50 := by
  rw [haLo_toNat]
  omega

/-- R95's inversion: without the offset 0x41 the letters are the two nibbles, which make up the byte. -/
theorem byte_eq_of_letters (b : Byte) : b = (haHi b - 0x41#8) <<< 4 ||| (haLo b - 0x41#8) := by
  have hi : haHi b - 0x41#8 = (b.extractLsb' 4 4).setWidth 8 := by
    rw [haHi, BitVec.add_comm, BitVec.add_sub_cancel]
  have lo : haLo b - 0x41#8 = (b.extractLsb' 0 4).setWidth 8 := by
    rw [haLo, BitVec.add_comm, BitVec.add_sub_cancel]
  rw [hi, lo]
  apply BitVec.eq_of_getLsbD_eq
  intro i hi8
  by_cases low : i < 4
  · simp [low, hi8]
  · simp [low, hi8, show i - 4 < 4 by omega, show 4 + (i - 4) = i by omega]

/-! ### ENC after ENCNAME (R94) -/

theorem execResult_encname (s : State) :
    execResult .encname s = (s.writeBytes .enc 0 (encBytes s)).complete .none .none := rfl

theorem encname_byte (s : State) {k : Nat} (hk : k < 33) :
    (execResult .encname s).byte .enc k = (encBytes s).getD k 0 := by
  rw [execResult_encname, State.byte_complete, byte_enc_name s hk]

/-- Label byte `k` stands in ENC as the letters `2k` and `2k + 1`. -/
theorem encname_letters (s : State) {k : Nat} (hk : k < 16) :
    (execResult .encname s).byte .enc (2 * k) = haHi (s.byte .label k) ∧
      (execResult .encname s).byte .enc (2 * k + 1) = haLo (s.byte .label k) := by
  obtain ⟨hi, lo⟩ := encBytes_letters s hk
  exact ⟨(encname_byte s (by omega)).trans hi, (encname_byte s (by omega)).trans lo⟩

theorem encname_terminator (s : State) : (execResult .encname s).byte .enc 32 = 0x00#8 := by
  rw [encname_byte s (by omega), encBytes_terminator]
  rfl

/-- What holds of both letters of every label byte holds at all 32 indices. -/
theorem forall_letter_of_pairs {P : Nat → Prop} (h : ∀ j, j < 16 → P (2 * j) ∧ P (2 * j + 1)) :
    ∀ k, k < 32 → P k := by
  intro k hk
  obtain ⟨even, odd⟩ := h (k / 2) (by omega)
  rcases Nat.mod_two_eq_zero_or_one k with hm | hm
  · rwa [show 2 * (k / 2) = k by omega] at even
  · rwa [show 2 * (k / 2) + 1 = k by omega] at odd

/-! ### The laws of R95 -/

theorem encname_letter_range (s : State) : ∀ k, k < 32 →
    0x41 ≤ ((execResult .encname s).byte .enc k).toNat ∧
      ((execResult .encname s).byte .enc k).toNat ≤ 0x50 := by
  refine forall_letter_of_pairs fun j hj => ?_
  obtain ⟨hi, lo⟩ := encname_letters s hj
  rw [hi, lo]
  exact ⟨haHi_range _, haLo_range _⟩

/-- The letters `2k` and `2k + 1` depend on label byte `k` alone. -/
theorem encname_letters_congr {s s' : State} {k : Nat} (hk : k < 16)
    (h : s.byte .label k = s'.byte .label k) :
    (execResult .encname s).byte .enc (2 * k) = (execResult .encname s').byte .enc (2 * k) ∧
      (execResult .encname s).byte .enc (2 * k + 1)
        = (execResult .encname s').byte .enc (2 * k + 1) := by
  obtain ⟨hi, lo⟩ := encname_letters s hk
  obtain ⟨hi', lo'⟩ := encname_letters s' hk
  rw [hi, lo, hi', lo', h]
  exact ⟨rfl, rfl⟩

theorem label_byte_of_encname (s : State) {k : Nat} (hk : k < 16) :
    s.byte .label k = ((execResult .encname s).byte .enc (2 * k) - 0x41#8) <<< 4
      ||| ((execResult .encname s).byte .enc (2 * k + 1) - 0x41#8) := by
  obtain ⟨hi, lo⟩ := encname_letters s hk
  rw [hi, lo]
  exact byte_eq_of_letters _

/-- Two labels encode equally exactly when they are equal. -/
theorem encname_enc_eq_iff (s s' : State) :
    (∀ k, k < 32 → (execResult .encname s).byte .enc k = (execResult .encname s').byte .enc k) ↔
      ∀ k, k < 16 → s.byte .label k = s'.byte .label k := by
  constructor
  · intro h k hk
    rw [label_byte_of_encname s hk, label_byte_of_encname s' hk, h (2 * k) (by omega),
      h (2 * k + 1) (by omega)]
  · intro h
    exact forall_letter_of_pairs fun j hj => encname_letters_congr hj (h j hj)

/-- No letter is 0x00, so the terminator is ENC's only 0x00. -/
theorem encname_zero_iff (s : State) {k : Nat} (hk : k < 33) :
    (execResult .encname s).byte .enc k = 0x00#8 ↔ k = 32 := by
  constructor
  · intro h
    by_contra hne
    have low := (encname_letter_range s k (by omega)).1
    rw [h] at low
    exact absurd low (by decide)
  · rintro rfl
    exact encname_terminator s

/-! ### The obligations -/

/-- Settles O15: the numbers of the two letters, and the range each lies in. -/
theorem halfAsciiOfOneByte : Obligations.HalfAsciiOfOneByte := by
  intro b
  obtain ⟨hi_low, hi_high⟩ := haHi_range b
  obtain ⟨lo_low, lo_high⟩ := haLo_range b
  exact ⟨haHi_toNat b, haLo_toNat b, hi_low, hi_high, lo_low, lo_high⟩

/-- Settles O17: ENCNAME always answers, and each law is the lemma named for it; injectivity rests on R95's
inversion, `byte_eq_of_letters`. -/
theorem encoderLaws : Obligations.EncoderLaws := by
  intro s s'
  exact ⟨_, _, exec_eq .encname s, exec_eq .encname s', encname_letter_range s, encname_enc_eq_iff s s',
    fun _ hk => encname_letters_congr hk, fun _ hk => label_byte_of_encname s hk,
    fun _ hk => encname_zero_iff s hk⟩

end Sys2Proof.Proofs
end

section
/-! The request builder (R97, R98, R103, R104): the flags word as a sum of its fields, TX after BUILDREQ read
through the codec, and why PARSERESP refuses a request. -/

namespace Sys2Proof.Proofs

open Sys2Proof Sys2Proof.Machine

/-! ### The flags word from its sub-fields (R98) -/

theorem field_toNat {w k : Nat} (v : BitVec w) (h : k + w ≤ 16) :
    (v.setWidth 16 <<< k).toNat = v.toNat * 2 ^ k := by
  have bound : v.toNat * 2 ^ k < 2 ^ 16 :=
    calc v.toNat * 2 ^ k < 2 ^ w * 2 ^ k := Nat.mul_lt_mul_of_pos_right v.isLt (Nat.two_pow_pos k)
      _ = 2 ^ (k + w) := by rw [Nat.pow_add, Nat.mul_comm]
      _ ≤ 2 ^ 16 := Nat.pow_le_pow_right (by decide) h
  have width : v.toNat < 2 ^ 16 := Nat.lt_of_lt_of_le v.isLt (Nat.pow_le_pow_right (by decide) (by omega))
  rw [BitVec.toNat_shiftLeft, BitVec.toNat_setWidth, Nat.mod_eq_of_lt width, Nat.shiftLeft_eq,
    Nat.mod_eq_of_lt bound]

/-- A field put below the fields already in the word overlaps none of them, so the OR is a sum. -/
theorem or_field_toNat {a : Half} {n w k : Nat} (v : BitVec w) (h : k + w ≤ 16)
    (ha : a.toNat = n * 2 ^ (k + w)) :
    (a ||| v.setWidth 16 <<< k).toNat = (n * 2 ^ w + v.toNat) * 2 ^ k := by
  have shifted : n * 2 ^ (k + w) = (2 ^ w * n) <<< k := by
    rw [Nat.shiftLeft_eq, Nat.pow_add]
    ring
  rw [BitVec.toNat_or, field_toNat v h, ha, shifted, ← Nat.shiftLeft_eq, ← Nat.shiftLeft_or_distrib,
    ← Nat.two_pow_add_eq_or_of_lt v.isLt, Nat.shiftLeft_eq, Nat.mul_comm n]

theorem assembleHeaderFlags_toNat (r : BitVec 1) (opcode : BitVec 4) (aa tc rd ra : BitVec 1)
    (nm : BitVec 2) (b : BitVec 1) (rc : BitVec 4) :
    (assembleHeaderFlags r opcode aa tc rd ra nm b rc).toNat
      = r.toNat * 2 ^ 15 + opcode.toNat * 2 ^ 11 + aa.toNat * 2 ^ 10 + tc.toNat * 2 ^ 9
        + rd.toNat * 2 ^ 8 + ra.toNat * 2 ^ 7 + nm.toNat * 2 ^ 5 + b.toNat * 2 ^ 4 + rc.toNat := by
  have h15 := field_toNat (k := 15) r (by decide)
  have h11 := or_field_toNat (k := 11) opcode (by decide) h15
  have h10 := or_field_toNat (k := 10) aa (by decide) h11
  have h9 := or_field_toNat (k := 9) tc (by decide) h10
  have h8 := or_field_toNat (k := 8) rd (by decide) h9
  have h7 := or_field_toNat (k := 7) ra (by decide) h8
  have h5 := or_field_toNat (k := 5) nm (by decide) h7
  have h4 := or_field_toNat (k := 4) b (by decide) h5
  have h0 := or_field_toNat (k := 0) rc (by decide) h4
  rw [BitVec.shiftLeft_zero] at h0
  rw [assembleHeaderFlags, h0]
  ring

/-! ### TX after BUILDREQ (R99) -/

theorem execResult_buildreq (s : State) :
    execResult .buildreq s
      = (s.writeBytes .tx 0 (requestHeader s.engine.id ++ requestQuestion)).complete .none .none := rfl

theorem buildreq_byte (s : State) {k : Nat} (hk : k < 50) :
    (execResult .buildreq s).byte .tx k
      = (requestHeader s.engine.id ++ requestQuestion).getD k 0 := by
  rw [execResult_buildreq, State.byte_complete, byte_tx_request s hk]

theorem buildreq_read16 (s : State) {k : Nat} {hi lo : Byte} (hk : k + 1 < 50)
    (h0 : (requestHeader s.engine.id ++ requestQuestion).getD k 0 = hi)
    (h1 : (requestHeader s.engine.id ++ requestQuestion).getD (k + 1) 0 = lo) :
    (execResult .buildreq s).read16 .tx k = hi ++ lo := by
  rw [State.read16, buildreq_byte s (by omega), buildreq_byte s hk, h0, h1]

theorem buildreq_read16_id (s : State) : (execResult .buildreq s).read16 .tx 0 = s.engine.id := by
  rw [buildreq_read16 s (by decide) rfl rfl]
  exact bytesOf16_append s.engine.id

theorem buildreq_read16_question_count (s : State) :
    (execResult .buildreq s).read16 .tx 4 = 1#16 :=
  buildreq_read16 s (hi := 0x00#8) (lo := 0x01#8) (by decide) rfl rfl

/-- The counts of answers, authority records and additional records. -/
theorem buildreq_read16_record_counts (s : State) {off : Nat} (h : off = 6 ∨ off = 8 ∨ off = 10) :
    (execResult .buildreq s).read16 .tx off = 0#16 := by
  rcases h with rfl | rfl | rfl <;>
    exact buildreq_read16 s (hi := 0x00#8) (lo := 0x00#8) (by decide) rfl rfl

/-- Byte 44 of a request is the name's last letter and byte 45 its terminator. -/
theorem buildreq_read16_name_end (s : State) :
    (execResult .buildreq s).read16 .tx 44 = 0x4100#16 :=
  buildreq_read16 s (hi := 0x41#8) (lo := 0x00#8) (by decide) rfl rfl

/-! ### The codec reads TX (R87) -/

theorem rd16_data (s : State) {b : Buffer} {off : Nat} (h : off + 2 ≤ bufferSize b) :
    (execResult (.rd16 (.buffer b) off) s).data = (s.read16 b off).setWidth 32 := by
  have passes : codecCheck .read (.buffer b) off Width.two.count = some b := codecCheck_read h
  rw [execResult, codecRead, passes]
  rfl

/-- An acceptance changes no byte, so RD16 after it loads the two bytes that were there. -/
theorem rd16_accepted (t : State) (w : Word) {b : Buffer} {off : Nat} {v : Half}
    (h : off + 2 ≤ bufferSize b) (hv : t.read16 b off = v) :
    ∃ u, exec (.rd16 (.buffer b) off) (t.accept w) = .next u ∧ u.data = v.setWidth 32 := by
  refine ⟨_, exec_eq _ _, ?_⟩
  rw [rd16_data _ h, State.read16_congr fun k _ _ => State.byte_accept t w b k, hv]

/-! ### The name in TX is ENCNAME's of the wildcard label (R101, R103) -/

theorem buildreq_name_byte (s : State) {k : Nat} (hk : k < 32) :
    (execResult .buildreq s).byte .tx (13 + k) = (haBytes wildcardLabel).getD k 0 := by
  have question : requestQuestion = lengthPrefix :: (haBytes wildcardLabel
      ++ ([0x00] ++ bytesOf16 Config.typeNbstat ++ bytesOf16 Config.classIn)) := rfl
  have name_length : (haBytes wildcardLabel).length = 32 := rfl
  rw [buildreq_byte s (by omega), request_getD_question _ (by omega), question,
    show 13 + k - 12 = k + 1 by omega, List.getD_cons_succ, List.getD_append _ _ _ _ (by omega)]

/-- Byte `k` of the wildcard label stands in TX as the letters `13 + 2k` and `13 + (2k + 1)`. -/
theorem buildreq_letters (s : State) {k : Nat} (hk : k < 16) :
    (execResult .buildreq s).byte .tx (13 + 2 * k) = haHi (wildcardLabel.getD k 0) ∧
      (execResult .buildreq s).byte .tx (13 + (2 * k + 1)) = haLo (wildcardLabel.getD k 0) := by
  obtain ⟨hi, lo⟩ := haBytes_getElem? wildcardLabel hk
  rw [buildreq_name_byte s (by omega), buildreq_name_byte s (by omega),
    List.getD_eq_getElem?_getD (i := 2 * k), hi, List.getD_eq_getElem?_getD (i := 2 * k + 1), lo]
  exact ⟨rfl, rfl⟩

theorem label_byte_of_wildcard {s : State} (star : s.byte .label 0 = 0x2A#8)
    (zeros : ∀ k, 1 ≤ k → k < 16 → s.byte .label k = 0x00#8) {k : Nat} (hk : k < 16) :
    s.byte .label k = wildcardLabel.getD k 0 := by
  cases k with
  | zero => exact star
  | succ j =>
    rw [zeros (j + 1) (by omega) hk, wildcardLabel, List.getD_cons_succ,
      List.getD_replicate _ (by omega)]

theorem buildreq_name_eq_encname (s : State) {s' : State} (star : s'.byte .label 0 = 0x2A#8)
    (zeros : ∀ k, 1 ≤ k → k < 16 → s'.byte .label k = 0x00#8) : ∀ k, k < 32 →
    (execResult .buildreq s).byte .tx (13 + k) = (execResult .encname s').byte .enc k := by
  refine forall_letter_of_pairs fun j hj => ?_
  obtain ⟨hi, lo⟩ := buildreq_letters s hj
  obtain ⟨hi', lo'⟩ := encname_letters s' hj
  rw [hi, lo, hi', lo', label_byte_of_wildcard star zeros hj]
  exact ⟨rfl, rfl⟩

/-! ### PARSERESP on a wrong type field (R115, R123) -/

theorem parserespResult_wrongType {s : State} (hl : s.engine.len.toNat ≤ 576)
    (ht : s.read16 .rx 44 ≠ 0x0021#16) :
    parserespResult s
      = (s.clearResult.setCursor 54 0).complete .protocolViolation .typeDiscriminator := by
  rw [parserespResult, parseResponse_wrongType s.clearResult hl ht]
  rfl

/-- A parse that raises commits nothing, so the result state stays as `clear_result()` left it. -/
theorem raisedParse_cleared (s : State) (c i : Nat) (e : ErrorKind) (g : Gate) :
    ResultCleared ((s.clearResult.setCursor c i).complete e g) :=
  { s.clearResult_cleared with }

/-- The type field a parse reads from a request is the end of the request's name. -/
theorem request_type_field {r s : State}
    (h : ∀ i, i < 50 → s.byte .rx i = (execResult .buildreq r).byte .tx i) :
    s.read16 .rx 44 = 0x4100#16 := by
  rw [State.read16, h 44 (by decide), h 45 (by decide)]
  exact buildreq_read16_name_end r

/-! ### The obligations -/

/-- Settles O18: the fields are disjoint, so the assembled word is their sum; the request's is all zero. -/
theorem requestFlagsWord : Obligations.RequestFlagsWord :=
  ⟨assembleHeaderFlags_toNat, rfl, rfl⟩

/-- Settles O20: each read loads what BUILDREQ put at its index, and the name agrees with ENCNAME's letter
by letter. -/
theorem requestReadsBack : Obligations.RequestReadsBack := by
  intro s
  refine ⟨_, exec_eq .buildreq s, ?_, ?_, ?_, ?_⟩
  · exact rd16_accepted _ _ (by decide) (buildreq_read16_id s)
  · exact rd16_accepted _ _ (by decide) (buildreq_read16_question_count s)
  · intro off hoff
    have fits : off + 2 ≤ bufferSize .tx := by
      change off + 2 ≤ 50
      omega
    exact rd16_accepted _ _ fits (buildreq_read16_record_counts s hoff)
  · intro s' star zeros
    exact ⟨_, exec_eq .encname s', buildreq_name_eq_encname s star zeros⟩

/-- Settles O21: RX[44..45] holds the end of the request's name, 0x4100, where a response has its type
0x0021, so gate 3 fails for every length that passes gate 1. -/
theorem requestIsNoResponse : Obligations.RequestIsNoResponse := by
  have shortest : Config.respLen 0 = 101 := Config_respLen 0
  refine ⟨by omega, shortest, ?_⟩
  intro r q s hq hrx hlen
  obtain rfl : execResult .buildreq r = q := by rwa [exec_eq, next_inj] at hq
  have type_field := request_type_field hrx
  have wrong_type : s.read16 .rx 44 ≠ 0x0021#16 := by
    rw [type_field]
    decide
  have ends : execResult .parseresp s
      = (s.clearResult.setCursor 54 0).complete .protocolViolation .typeDiscriminator :=
    parserespResult_wrongType (by omega) wrong_type
  rw [exec_eq, ends]
  exact ⟨_, rfl, State.complete_ends _ _ _, type_field, raisedParse_cleared s 54 0 _ _⟩

end Sys2Proof.Proofs
end

section
/-! The two decoded flag views (R106 to R109): a view is its sub-fields side by side, each placed where no
other stands, so each is read back from its place; and the header's sub-fields make up its flags word again. -/

namespace Sys2Proof.Proofs

open Sys2Proof Sys2Proof.Machine

/-! ### A field placed in a 32-bit word -/

theorem extractLsb'_placed_same {w : Nat} (v : BitVec w) {k : Nat} (h : k + w ≤ 32) :
    (v.setWidth 32 <<< k : Word).extractLsb' k w = v := by
  apply BitVec.eq_of_getLsbD_eq
  intro i hi
  simp [hi, show k + i < 32 by omega]

theorem extractLsb'_placed_apart {w : Nat} (v : BitVec w) {k lo n : Nat}
    (h : lo + n ≤ k ∨ k + w ≤ lo) : (v.setWidth 32 <<< k : Word).extractLsb' lo n = 0#n := by
  apply BitVec.eq_of_getLsbD_eq
  intro i hi
  have above : ¬ lo + i < k → w ≤ lo + i - k := by omega
  simp +contextual [hi, above]

/-! ### The views' sub-fields at their places (R107, R109) -/

theorem hfw_fields (f : Half) :
    (hfw f).extractLsb' 0 1 = hR f ∧ (hfw f).extractLsb' 1 4 = hOP f ∧
    (hfw f).extractLsb' 5 1 = hAA f ∧ (hfw f).extractLsb' 6 1 = hTC f ∧
    (hfw f).extractLsb' 7 1 = hRD f ∧ (hfw f).extractLsb' 8 1 = hRA f ∧
    (hfw f).extractLsb' 9 1 = hB f ∧ (hfw f).extractLsb' 10 4 = hRC f ∧
    (hfw f).extractLsb' 14 2 = hNMRSV f ∧ (hfw f).extractLsb' 16 16 = 0#16 := by
  rw [hfw, ← BitVec.shiftLeft_zero ((hR f).setWidth 32)]
  simp (disch := decide) only [BitVec.extractLsb'_or, extractLsb'_placed_same,
    extractLsb'_placed_apart, BitVec.or_zero, BitVec.zero_or, and_self]

theorem efw_fields (e : Half) :
    (efw e).extractLsb' 0 16 = e ∧
    (efw e).extractLsb' 16 1 = eG e ∧ (efw e).extractLsb' 17 2 = eONT e ∧
    (efw e).extractLsb' 19 1 = eDRG e ∧ (efw e).extractLsb' 20 1 = eCNF e ∧
    (efw e).extractLsb' 21 1 = eACT e ∧ (efw e).extractLsb' 22 1 = ePRM e ∧
    (efw e).extractLsb' 23 9 = eRSV e := by
  rw [efw, ← BitVec.shiftLeft_zero (e.setWidth 32)]
  simp (disch := decide) only [BitVec.extractLsb'_or, extractLsb'_placed_same,
    extractLsb'_placed_apart, BitVec.or_zero, BitVec.zero_or, and_self]

/-! ### No bit of the header flags word is lost (R107) -/

/-- The nine sub-fields tile the 16 bits, so their sum with each field's weight is the word. -/
theorem assembleHeaderFlags_fields (f : Half) :
    assembleHeaderFlags (hR f) (hOP f) (hAA f) (hTC f) (hRD f) (hRA f) (hNMRSV f) (hB f) (hRC f)
      = f := by
  apply BitVec.eq_of_toNat_eq
  have bound : f.toNat < 2 ^ 16 := f.isLt
  rw [assembleHeaderFlags_toNat]
  simp only [hR, hOP, hAA, hTC, hRD, hRA, hNMRSV, hB, hRC, BitVec.extractLsb'_toNat,
    Nat.shiftRight_eq_div_pow]
  omega

/-- The flags word that a header view came from. -/
def headerOfView (v : Word) : Half :=
  assembleHeaderFlags (v.extractLsb' 0 1) (v.extractLsb' 1 4) (v.extractLsb' 5 1)
    (v.extractLsb' 6 1) (v.extractLsb' 7 1) (v.extractLsb' 8 1) (v.extractLsb' 14 2)
    (v.extractLsb' 9 1) (v.extractLsb' 10 4)

theorem headerOfView_hfw (f : Half) : headerOfView (hfw f) = f := by
  obtain ⟨r, op, aa, tc, rd, ra, b, rc, nm, -⟩ := hfw_fields f
  rw [headerOfView, r, op, aa, tc, rd, ra, b, rc, nm]
  exact assembleHeaderFlags_fields f

/-! ### The obligations -/

/-- Settles O23: each accessor is its source bits by definition, `hfw_fields` gives the places, and
`headerOfView` inverts the view. -/
theorem headerFlagsView : Obligations.HeaderFlagsView := by
  refine ⟨fun _ => ⟨rfl, rfl, rfl, rfl, rfl, rfl, rfl, rfl, rfl⟩, hfw_fields, fun f => ?_,
    Function.LeftInverse.injective headerOfView_hfw, rfl⟩
  obtain ⟨r, op, aa, tc, rd, ra, b, rc, nm, -⟩ := hfw_fields f
  exact ⟨r, op, aa, tc, rd, ra, b, rc, nm⟩

/-- Settles O24: each accessor is its source bits by definition, and `efw_fields` gives the places. -/
theorem entryFlagsView : Obligations.EntryFlagsView :=
  ⟨fun _ => ⟨rfl, rfl, rfl, rfl, rfl, rfl, rfl⟩, efw_fields, fun e => (efw_fields e).2, rfl, rfl⟩

end Sys2Proof.Proofs
end

section
/-! The ends of PARSERESP (R123, R126, R127, R133): which end each state comes to, and which bytes of RX
it depends on. -/

namespace Sys2Proof.Proofs

open Sys2Proof Sys2Proof.Machine

/-! ### One equation per end (R110); `parserespResult_wrongType` is the third of four -/

theorem parserespResult_oversize {s : State} (hl : 576 < s.engine.len.toNat) :
    parserespResult s = (s.clearResult.setCursor 0 0).complete .protocolViolation .sizeCeiling := by
  rw [parserespResult, parseResponse_oversize s.clearResult hl]
  rfl

theorem parserespResult_wrongLength {s : State} (hl : s.engine.len.toNat ≤ 576)
    (ht : s.read16 .rx 44 = 0x0021#16)
    (hn : s.engine.len.toNat ≠ 101 + 18 * (s.byte .rx 54).toNat) :
    parserespResult s
      = (s.clearResult.setCursor 55 0).complete .protocolViolation .lengthCheck := by
  rw [parserespResult, parseResponse_wrongLength s.clearResult hl ht hn]
  rfl

theorem parserespResult_success {s : State} (h : ParseSucceeds s) :
    parserespResult s = ((s.clearResult.setCursor s.engine.len.toNat (s.byte .rx 54).toNat).commit
      (parsedOf s)).complete .none .none := by
  obtain ⟨hl, ht, hn⟩ := h
  rw [parserespResult, parseResponse_ok s.clearResult hl ht hn, parsedOf_clearResult]
  rfl

/-! ### How PARSERESP ends (R123, R133) -/

theorem not_parseSucceeds_of_failsAtGate {s : State} {gate : BitVec 4} (h : FailsAtGate s gate) :
    ¬ ParseSucceeds s := by
  rintro ⟨hl, ht, hn⟩
  rcases h with ⟨oversize, -⟩ | ⟨-, wrong_type, -⟩ | ⟨-, -, wrong_length, -⟩
  · omega
  · exact wrong_type ht
  · exact wrong_length hn

theorem parserespResult_success_ends {s : State} (h : ParseSucceeds s) :
    EndedWith (parserespResult s) 0 0 := by
  rw [parserespResult_success h]
  exact State.complete_ends _ _ _

theorem raisedParse_ends (s : State) (c i : Nat) (g : Gate) :
    EndedWith ((s.clearResult.setCursor c i).complete .protocolViolation g) 4 g.number :=
  State.complete_ends _ _ _

/-- Either all three conditions hold, or the first that fails names the gate. -/
theorem parserespResult_ends (s : State) :
    (ParseSucceeds s ∧ EndedWith (parserespResult s) 0 0) ∨
      ∃ gate, FailsAtGate s gate ∧ EndedWith (parserespResult s) 4 gate ∧
        ResultCleared (parserespResult s) := by
  rcases parserespResult_cases s with ⟨oversize, e⟩ | ⟨hl, wrong_type, e⟩ |
    ⟨hl, ht, wrong_length, e⟩ | ⟨hl, ht, hn, -⟩
  · rw [e]
    exact .inr ⟨1, .inl ⟨oversize, rfl⟩, raisedParse_ends _ _ _ _, raisedParse_cleared _ _ _ _ _⟩
  · rw [e]
    exact .inr ⟨3, .inr (.inl ⟨hl, wrong_type, rfl⟩), raisedParse_ends _ _ _ _,
      raisedParse_cleared _ _ _ _ _⟩
  · rw [e]
    exact .inr ⟨5, .inr (.inr ⟨hl, ht, wrong_length, rfl⟩), raisedParse_ends _ _ _ _,
      raisedParse_cleared _ _ _ _ _⟩
  · exact .inl ⟨⟨hl, ht, hn⟩, parserespResult_success_ends ⟨hl, ht, hn⟩⟩

/-! ### Replacing RX: what does not read RX commutes with it -/

/-- The state with another list for RX. -/
def withRx (s : State) (m : Memory) : State := { s with bufs := { s.bufs with rx := m } }

theorem raisedParse_withRx (s : State) (m : Memory) (c i : Nat) (e : ErrorKind) (g : Gate) :
    ((withRx s m).clearResult.setCursor c i).complete e g
      = withRx ((s.clearResult.setCursor c i).complete e g) m := rfl

theorem writeBytes_withRx (s : State) (m : Memory) {b : Buffer} (i : Nat) (vs : List Byte)
    (hb : b ≠ .rx) : (withRx s m).writeBytes b i vs = withRx (s.writeBytes b i vs) m := by
  cases b with
  | rx => exact absurd rfl hb
  | tx | label | enc | stats | entry => rfl

theorem writeRecords_withRx (s : State) (m : Memory) (k : Nat) (es : List Entry) :
    writeRecords (withRx s m) k es = withRx (writeRecords s k es) m := by
  induction es generalizing s k with
  | nil => rfl
  | cons e es ih =>
    rw [writeRecords, writeRecords, writeBytes_withRx s m _ _ (by decide), ih]

theorem commit_withRx (s : State) (m : Memory) (p : Parsed) :
    (withRx s m).commit p = withRx (s.commit p) m := by
  rw [State.commit, State.commit]
  dsimp only
  rw [← writeRecords_withRx, ← writeBytes_withRx _ _ _ _ (by decide)]
  rfl

theorem committedParse_withRx (s : State) (m : Memory) (c i : Nat) (p : Parsed) :
    (((withRx s m).clearResult.setCursor c i).commit p).complete .none .none
      = withRx (((s.clearResult.setCursor c i).commit p).complete .none .none) m :=
  congrArg (State.complete · .none .none) (commit_withRx (s.clearResult.setCursor c i) m p)

/-! ### What a parse stages depends on the bytes it reads (R127) -/

theorem parseHead_congr {s t : State}
    (h : ∀ i, i < 12 ∨ (44 ≤ i ∧ i ≤ 54) → t.byte .rx i = s.byte .rx i) :
    parseHead t 44 = parseHead s 44 := by
  have half : ∀ c, c + 1 < 12 ∨ (44 ≤ c ∧ c + 1 ≤ 54) → t.read16 .rx c = s.read16 .rx c :=
    fun c hc => State.read16_congr fun k _ _ => h k (by omega)
  have word : t.read32 .rx 48 = s.read32 .rx 48 :=
    State.read32_congr fun k _ _ => h k (by omega)
  simp only [parseHead, Config.rrFixedLen]
  rw [half 0 (by omega), half 2 (by omega), half 4 (by omega), half 6 (by omega), half 8 (by omega),
    half 10 (by omega), half 44 (by omega), half 46 (by omega), word, half 52 (by omega),
    h 54 (by omega)]

theorem entriesFrom_congr {s t : State} {c k : Nat}
    (h : ∀ i, c ≤ i → i < c + 18 * k → t.byte .rx i = s.byte .rx i) :
    entriesFrom t c k = entriesFrom s c k := by
  induction k generalizing c with
  | zero => rfl
  | succ k ih =>
    have first : entryAt t c = entryAt s c := by
      rw [entryAt, State.bytes_congr fun i _ _ => h i (by omega) (by omega),
        h (c + 15) (by omega) (by omega),
        State.read16_congr fun i _ _ => h i (by omega) (by omega)]
      rfl
    rw [entriesFrom, entriesFrom, first, ih fun i _ _ => h i (by omega) (by omega)]

theorem parsedOf_congr {s t : State}
    (head : ∀ i, i < 12 ∨ (44 ≤ i ∧ i ≤ 54) → t.byte .rx i = s.byte .rx i)
    (rest : ∀ i, 55 ≤ i → i < 101 + 18 * (s.byte .rx 54).toNat → t.byte .rx i = s.byte .rx i) :
    parsedOf t = parsedOf s := by
  rw [parsedOf, parsedOf, parseHead_congr head, head 54 (by omega),
    entriesFrom_congr fun i _ _ => rest i (by omega) (by omega),
    State.bytes_congr fun i _ _ => rest i (by omega) (by omega)]

/-- R127's indices: the bytes of RX that PARSERESP reads from a state. -/
def ParseReads (s : State) (i : Nat) : Prop :=
  i < 12 ∨ (44 ≤ i ∧ i ≤ 54) ∨ (55 ≤ i ∧ i < s.engine.len.toNat ∧ ParseSucceeds s)

/-- With RX replaced by a list that agrees on the bytes read, the same one of the four ends comes. -/
theorem parserespResult_withRx {s : State} {m : Memory}
    (h : ∀ i, s.engine.len.toNat ≤ 576 → ParseReads s i → (withRx s m).byte .rx i = s.byte .rx i) :
    parserespResult (withRx s m) = withRx (parserespResult s) m := by
  by_cases oversize : 576 < s.engine.len.toNat
  · rw [parserespResult_oversize oversize, parserespResult_oversize (s := withRx s m) oversize,
      raisedParse_withRx]
  have hl : s.engine.len.toNat ≤ 576 := by omega
  have head : ∀ i, i < 12 ∨ (44 ≤ i ∧ i ≤ 54) → (withRx s m).byte .rx i = s.byte .rx i :=
    fun i hi => h i hl (hi.imp_right .inl)
  have type_field : (withRx s m).read16 .rx 44 = s.read16 .rx 44 :=
    State.read16_congr fun i _ _ => head i (by omega)
  have count : (withRx s m).byte .rx 54 = s.byte .rx 54 := head 54 (by omega)
  by_cases ht : s.read16 .rx 44 = 0x0021#16
  · by_cases hn : s.engine.len.toNat = 101 + 18 * (s.byte .rx 54).toNat
    · have ok : ParseSucceeds s := ⟨hl, ht, hn⟩
      have ok' : ParseSucceeds (withRx s m) := ⟨hl, type_field.trans ht, by rwa [count]⟩
      have staged : parsedOf (withRx s m) = parsedOf s :=
        parsedOf_congr head fun i lo hi => h i hl (.inr (.inr ⟨lo, by omega, ok⟩))
      rw [parserespResult_success ok, parserespResult_success ok', staged, count]
      exact committedParse_withRx s m _ _ _
    · rw [parserespResult_wrongLength hl ht hn, parserespResult_wrongLength (s := withRx s m) hl
        (type_field.trans ht) (by rwa [count]), raisedParse_withRx]
  · rw [parserespResult_wrongType hl ht,
      parserespResult_wrongType (s := withRx s m) hl (by rwa [type_field]),
      raisedParse_withRx]

/-! ### The obligations -/

/-- Settles O25: the end is `parserespResult_ends`, whose two cases exclude each other. -/
theorem parserespOutcome : Obligations.ParserespOutcome := by
  intro s
  refine ⟨parserespResult s, exec_eq .parseresp s, ?_⟩
  rcases parserespResult_ends s with ⟨ok, idle, done, err, gate⟩ |
    ⟨g, fails, ⟨idle, done, err, gate⟩, -⟩
  · exact ⟨idle, done, iff_of_true err ok, fun _ => gate, fun ne => absurd err ne⟩
  · have err_ne : (parserespResult s).status.err ≠ 0 := by
      rw [err]
      decide
    exact ⟨idle, done, iff_of_false err_ne (not_parseSucceeds_of_failsAtGate fails),
      fun eq => absurd eq err_ne, fun _ => ⟨err, gate ▸ fails⟩⟩

/-- Settles O28: fewer than 101 bytes pass gate 1 and cannot pass gate 5, and a parse that fails reads
nothing from index 55 on. -/
theorem shortResponseFails : Obligations.ShortResponseFails := by
  intro s short
  have hl : s.engine.len.toNat ≤ 576 := by omega
  have fails : ¬ ParseSucceeds s := by
    rintro ⟨-, -, hn⟩
    omega
  have cleared : ResultCleared (parserespResult s) := by
    rcases parserespResult_ends s with ⟨ok, -⟩ | ⟨_, -, -, cleared⟩
    · exact absurd ok fails
    · exact cleared
  refine ⟨parserespResult s, exec_eq .parseresp s, cleared, fun ht => ?_, fun ht => ?_, fun m h => ?_⟩
  · rw [parserespResult_wrongType hl ht]
    exact raisedParse_ends _ _ _ _
  · rw [parserespResult_wrongLength hl ht (by omega)]
    exact raisedParse_ends _ _ _ _
  · have below : ∀ i, ParseReads s i → i < 55 := by
      rintro i (hi | ⟨-, hi⟩ | ⟨-, -, ok⟩)
      · omega
      · omega
      · exact absurd ok fails
    rw [exec_eq, next_inj]
    exact parserespResult_withRx fun i _ reads => h i (below i reads)

/-- Settles O29: PARSERESP commutes with a replacement of RX that agrees on the bytes it reads. -/
theorem parserespReadExtent : Obligations.ParserespReadExtent := by
  intro s m h
  refine ⟨parserespResult s, exec_eq .parseresp s, ?_⟩
  rw [exec_eq, next_inj]
  exact parserespResult_withRx h

end Sys2Proof.Proofs
end

section
/-! The reset line (R148 to R150): what the step that drives it answers, and that no other step starts or ends
a reset. -/

namespace Sys2Proof.Proofs

open Sys2Proof Sys2Proof.Machine

/-! ### The values after reset (R149, R150) -/

/-- STATS and ENTRY list nothing, so every byte of them reads 0 (log 11). -/
theorem resetAt_resetHeld (s : State) (asserted : Bool) (epoch : Nat) :
    ResetHeld (s.resetAt asserted epoch) where
  idle := rfl
  status := rfl
  data := rfl
  rxlen := rfl
  txid := rfl
  result := ⟨rfl, rfl, rfl, rfl, rfl, rfl, rfl, rfl, rfl, fun _ => rfl, fun _ => rfl, rfl⟩

theorem statusWord_of_resetHeld {s : State} (h : ResetHeld s) : s.statusWord = 0 := by
  simp [State.statusWord, h.status, busy_eq_false h.idle]

/-! ### Driving the line (R148) -/

theorem driveReset_release {s : State} (hr : s.inReset = true) :
    s.driveReset false = s.resetAt false s.epoch := by
  simp [State.driveReset, hr]

/-- Releasing a line that is not asserted changes nothing (log 10). -/
theorem driveReset_released {s : State} (hr : s.inReset = false) : s.driveReset false = s := by
  simp [State.driveReset, hr]

@[simp] theorem driveReset_inReset (s : State) (on : Bool) : (s.driveReset on).inReset = on := by
  cases on with
  | true => rfl
  | false =>
    cases hr : s.inReset with
    | true =>
      rw [driveReset_release hr]
      rfl
    | false => rw [driveReset_released hr, hr]

theorem step_resetLine {s : State} {on : Bool} {rest : List Turn}
    (hs : s.schedule = .resetLine on :: rest) :
    step s = .next (State.driveReset { s with schedule := rest } on) := by
  unfold step
  rw [hs]

theorem step_wait {s : State} {polls : Nat} {rest : List Turn} (hs : s.schedule = .wait polls :: rest) :
    step s = waitTurn polls { s with schedule := rest } := by
  unfold step
  rw [hs]

/-! ### What the other steps keep -/

/-- The engine's step keeps what no command touches, for a rejected word too. -/
theorem runResult_keepsOuter (s : State) : KeepsOuter s (runResult s) := by
  unfold runResult
  cases decode s.engine.cw with
  | ok i => exact (execResult_keeps i s).2
  | error _ => exact s.complete_keepsOuter _ _

theorem regWrite_keeps_reset (s : State) (v : Word) (r : Reg) :
    (s.regWrite v r).inReset = s.inReset ∧ (s.regWrite v r).epoch = s.epoch := by
  cases r <;> exact ⟨rfl, rfl⟩

theorem hostWrite_keeps_reset (off : Nat) (v : Word) (s : State) :
    (hostWrite off v s).inReset = s.inReset ∧ (hostWrite off v s).epoch = s.epoch := by
  rcases hostWrite_cases off v s with ⟨_, -, -, -, dropped⟩ | ⟨r, -, -, -, written⟩ | ⟨-, ignored⟩
  · simp [dropped]
  · rw [written]
    exact regWrite_keeps_reset _ v r
  · simp [ignored]

theorem hostRead_keeps_reset (off : Nat) (s : State) :
    (hostRead off s).inReset = s.inReset ∧ (hostRead off s).epoch = s.epoch := by
  obtain ⟨_, _, e⟩ := hostRead_eq off s
  simp [e]

theorem accessResult_keeps_reset (a : HostAccess) (s : State) :
    (accessResult a s).inReset = s.inReset ∧ (accessResult a s).epoch = s.epoch := by
  unfold accessResult
  cases a.kind with
  | read => exact hostRead_keeps_reset _ _
  | write v => exact hostWrite_keeps_reset _ _ _

/-- "No register bit and no command causes a reset" (R148): only the turn of the reset line starts a reset,
ends one, or frees the unknown bytes anew. -/
theorem step_keeps_reset {s t : State} (h : step s = .next t) (hn : ¬ ResetNext s) :
    t.inReset = s.inReset ∧ t.epoch = s.epoch := by
  rcases step_cases h with ⟨-, -, rfl⟩ | ⟨-, -, rfl⟩ | ⟨a, _, -, -, -, rfl⟩ | ⟨on, rest, hs, -⟩ |
    ⟨_, _, -, -, rfl⟩
  · simp
  · have keeps := runResult_keepsOuter s.popTurn
    exact ⟨keeps.inReset, keeps.epoch⟩
  · exact accessResult_keeps_reset a s.popTurn
  · exact absurd ⟨on, rest, hs⟩ hn
  · simp

/-! ### The obligations -/

/-- Settles O51: an access and a WAIT's read both go through `hostAccess`, which faults in reset, and the
turns of every kind but the reset line's keep it (`step_keeps_reset`). -/
theorem resetLineAndAccesses : Obligations.ResetLineAndAccesses := by
  refine ⟨fun s a rest hs hr => ?_, fun s polls rest hs hr => ?_, fun s on rest hs => ?_,
    fun s t h hn => step_keeps_reset h hn⟩
  · rw [step_access hs]
    exact hostAccess_inReset hr
  · rw [step_wait hs]
    exact waitTurn_inReset hr
  · exact ⟨_, step_resetLine hs, driveReset_inReset _ on⟩

/-- Settles O50: State.reset is itself a state left by a reset, and a release leaves
`State.resetAt false`. -/
theorem releasedResetValues : Obligations.ReleasedResetValues := by
  refine ⟨⟨resetAt_resetHeld State.reset false 0, rfl⟩, fun s rest hs hr => ?_⟩
  have held := resetAt_resetHeld { s with schedule := rest } false s.epoch
  refine ⟨_, ?_, held, rfl, statusWord_of_resetHeld held⟩
  rw [step_resetLine hs, next_inj]
  exact driveReset_release hr

end Sys2Proof.Proofs
end

section
/-! The command word (R70 to R78, R81): decoding and encoding are inverse to each other, and the match
and mask rows are the decoder's. -/

namespace Sys2Proof.Proofs

open Sys2Proof Sys2Proof.Machine

/-! ### Decode and encode (R70, R77) -/

theorem decode_encode {i : Instr} (hwf : WellFormed i) : decode (encode i) = .ok i := by
  cases i with
  | rd8 sel off | rd16 sel off | rd32 sel off | wr8 sel off | wr16 sel off | wr32 sel off =>
    have h : off < 1024 := of_decide_eq_true hwf
    simp [encode, decode, fieldRsv18_assemble _ _ h, fieldRsv7_assemble, fieldOp_assemble,
      fieldBuf_assemble, fieldOffset_assemble _ _ h, BufSel.ofCode_code]
  | encname | buildreq | parseresp => rfl

theorem decodeFixed_ok {w : Word} {i j : Instr} (h : decodeFixed i w = .ok j) :
    j = i ∧ fieldBuf w = 0 ∧ fieldOffset w = 0 := by
  unfold decodeFixed at h
  split at h
  · cases h
  · rename_i operand
    injection h with h
    exact ⟨h.symm, by tauto⟩

/-- Everything a word that decodes can be: its reserved bits are 0, and its fields are the command's. -/
theorem decode_ok {w : Word} {i : Instr} (h : decode w = .ok i) :
    fieldRsv18 w = 0 ∧ fieldRsv7 w = 0 ∧ WellFormed i ∧
      encode i = assemble (fieldOp w) (fieldBuf w) (fieldOffset w).toNat := by
  have fits : decide ((fieldOffset w).toNat < offsetLimit) = true :=
    decide_eq_true (fieldOffset w).isLt
  unfold decode at h
  split at h
  · cases h
  · rename_i reserved
    obtain ⟨h18, h7⟩ : fieldRsv18 w = 0 ∧ fieldRsv7 w = 0 := by tauto
    refine ⟨h18, h7, ?_⟩
    have op_eq : ∀ n, (fieldOp w).toNat = n → fieldOp w = BitVec.ofNat 4 n := by
      rintro _ rfl
      simp
    split at h
    case h_7 hop | h_8 hop | h_9 hop =>
      obtain ⟨rfl, hbuf, hoff⟩ := decodeFixed_ok h
      rw [op_eq _ hop, hbuf, hoff]
      exact ⟨rfl, rfl⟩
    case h_10 => cases h
    all_goals
      rename_i hop
      injection h with h
      subst h
      rw [op_eq _ hop, encode, BufSel.code_ofCode]
      exact ⟨fits, rfl⟩

theorem encode_of_decode {w : Word} {i : Instr} (h : decode w = .ok i) : encode i = w := by
  obtain ⟨h18, h7, -, e⟩ := decode_ok h
  rw [e, assemble_fields w h18 h7]

/-! ### The match and mask table (R81) -/

/-- The row of a command's mnemonic selects its word, whatever the command. -/
theorem row_selects_encode {i : Instr} (hwf : WellFormed i) {r : OpcodeRow} (hr : r ∈ opcodeTable)
    (hm : r.mnemonic = i.mnemonic) : encode i &&& r.mask = r.matchWord := by
  cases i with
  | rd8 sel off => exact Laws.EncodeInTable.rd8 sel off hwf r hr hm
  | rd16 sel off => exact Laws.EncodeInTable.rd16 sel off hwf r hr hm
  | rd32 sel off => exact Laws.EncodeInTable.rd32 sel off hwf r hr hm
  | wr8 sel off => exact Laws.EncodeInTable.wr8 sel off hwf r hr hm
  | wr16 sel off => exact Laws.EncodeInTable.wr16 sel off hwf r hr hm
  | wr32 sel off => exact Laws.EncodeInTable.wr32 sel off hwf r hr hm
  | encname => exact Laws.EncodeInTable.encname hwf r hr hm
  | buildreq => exact Laws.EncodeInTable.buildreq hwf r hr hm
  | parseresp => exact Laws.EncodeInTable.parseresp hwf r hr hm

theorem row_mem (m : Mnemonic) : Laws.EncodeInTable.row m ∈ opcodeTable := by
  cases m <;> decide

/-- The codec rows' mask keeps the reserved bits and OP. -/
theorem fields_of_codec_mask {w v : Word} (h : w &&& 0xFFFC008F#32 = v) :
    fieldRsv18 w = fieldRsv18 v ∧ fieldRsv7 w = fieldRsv7 v ∧ fieldOp w = fieldOp v := by
  have masked : ∀ lo n, (0xFFFC008F#32).extractLsb' lo n = BitVec.allOnes n →
      w.extractLsb' lo n = v.extractLsb' lo n := fun lo n ones => by
    rw [← h, BitVec.extractLsb'_and, ones, BitVec.and_allOnes]
  exact ⟨masked 18 14 rfl, masked 7 1 rfl, masked 0 4 rfl⟩

theorem decode_of_row {w : Word} (m : Mnemonic)
    (h : w &&& (Laws.EncodeInTable.row m).mask = (Laws.EncodeInTable.row m).matchWord) :
    ∃ i, decode w = .ok i ∧ i.mnemonic = m := by
  cases m with
  | RD8 | RD16 | RD32 | WR8 | WR16 | WR32 =>
    obtain ⟨h18, h7, hop⟩ := fields_of_codec_mask h
    exact ⟨_, by simp only [decode, h18, h7, hop]; rfl, rfl⟩
  | ENCNAME | BUILDREQ | PARSERESP =>
    obtain rfl : w = _ := BitVec.and_allOnes.symm.trans h
    exact ⟨_, rfl, rfl⟩

/-- Row by row the table is the decoder. -/
theorem row_selects_iff (w : Word) {r : OpcodeRow} (hr : r ∈ opcodeTable) :
    w &&& r.mask = r.matchWord ↔ ∃ i, decode w = .ok i ∧ i.mnemonic = r.mnemonic := by
  constructor
  · intro h
    have is_row := Laws.EncodeInTable.row_of _ r hr rfl
    exact decode_of_row r.mnemonic (by rwa [← is_row])
  · rintro ⟨i, hi, hm⟩
    obtain ⟨-, -, hwf, -⟩ := decode_ok hi
    rw [← encode_of_decode hi]
    exact row_selects_encode hwf hr hm.symm

/-! ### The obligations on the word alone -/

/-- Settles O1: the fields of an assembled word are the ones put into it. -/
theorem encodedCommandDecodesBack : Obligations.EncodedCommandDecodesBack :=
  fun _ => decode_encode

/-- Settles O2: a word that decodes has zero reserved bits, so it is assembled from its fields. -/
theorem decodedWordEncodesBack : Obligations.DecodedWordEncodesBack := by
  intro w i h
  obtain ⟨-, -, hwf, -⟩ := decode_ok h
  exact ⟨hwf, encode_of_decode h⟩

/-- Settles O3: a row's word is the decoder's (`row_selects_iff`), and one word has one mnemonic and each
mnemonic one row. -/
theorem decodingFollowsMatchMaskTable : Obligations.DecodingFollowsMatchMaskTable := by
  refine ⟨fun w r hr => row_selects_iff w hr, fun w none_fits => ?_, fun w r hr r' hr' h h' => ?_⟩
  · cases hd : decode w with
    | error e => exact ⟨e, rfl⟩
    | ok i =>
      have hr := row_mem i.mnemonic
      have hm : i.mnemonic = (Laws.EncodeInTable.row i.mnemonic).mnemonic := by
        cases i <;> rfl
      exact absurd ((row_selects_iff w hr).2 ⟨i, hd, hm⟩) (none_fits _ hr)
  · obtain ⟨i, hi, hm⟩ := (row_selects_iff w hr).1 h
    obtain ⟨j, hj, hm'⟩ := (row_selects_iff w hr').1 h'
    obtain rfl : i = j := by simpa [hi] using hj
    rw [Laws.EncodeInTable.row_of _ r hr hm.symm, Laws.EncodeInTable.row_of _ r' hr' hm'.symm]


/-- Settles O4: the decoder evaluates each of the thirteen words. -/
theorem writtenOutWordsDecode : Obligations.WrittenOutWordsDecode := by
  unfold Obligations.WrittenOutWordsDecode
  decide

end Sys2Proof.Proofs
end

section
/-! Malformed words (R76) and the ends of the commands (R134, R135): R76's list in arithmetic is what the
decoder and the codec's check refuse, and each command ends with a legal pair of ERR and GATE. -/

namespace Sys2Proof.Proofs

open Sys2Proof Sys2Proof.Machine

/-! ### What the decoder and the check refuse is R76's list -/

/-- R76's list on the decoder's own fields. -/
theorem malformedWord_iff (w : Word) : MalformedWord w ↔
    MalformedFields (fieldOp w).toNat (fieldBuf w).toNat (fieldRsv7 w).toNat (fieldOffset w).toNat
      (fieldRsv18 w).toNat := by
  have high : w.toNat / 262144 % 16384 = w.toNat / 262144 := by
    have := w.isLt
    omega
  simp only [MalformedWord, fieldOp, fieldBuf, fieldRsv7, fieldOffset, fieldRsv18,
    BitVec.extractLsb'_toNat, Nat.shiftRight_eq_div_pow, Nat.pow_zero, Nat.div_one, Nat.reducePow, high]

theorem toNat_ne_zero {n : Nat} {v : BitVec n} (h : v ≠ 0) : v.toNat ≠ 0 :=
  fun e => h (BitVec.eq_of_toNat_eq e)

theorem decodeFixed_error {w : Word} {i : Instr} {e : DecodeError} (h : decodeFixed i w = .error e) :
    (fieldBuf w).toNat ≠ 0 ∨ (fieldOffset w).toNat ≠ 0 := by
  unfold decodeFixed at h
  split at h
  · rename_i operand
    exact operand.imp toNat_ne_zero toNat_ne_zero
  · cases h

theorem malformedWord_of_decode_error {w : Word} {e : DecodeError} (h : decode w = .error e) :
    MalformedWord w := by
  rw [malformedWord_iff]
  unfold decode at h
  split at h
  · rename_i reserved
    exact (reserved.imp toNat_ne_zero toNat_ne_zero).imp id .inl
  · split at h
    case h_7 hop | h_8 hop | h_9 hop =>
      have operand := decodeFixed_error h
      exact .inr (.inr (.inr (.inr (.inr (.inl ⟨by omega, operand⟩)))))
    case h_10 =>
      have width := (fieldOp w).isLt
      have reservedOp : (fieldOp w).toNat = 0 ∨ (fieldOp w).toNat = 4 ∨ 11 ≤ (fieldOp w).toNat := by
        simp only [imp_false] at *
        omega
      exact .inr (.inr (reservedOp.imp id (Or.imp id .inl)))
    all_goals cases h

theorem codecCheck_buffer_none_iff (dir : Direction) (b : Buffer) (off n : Nat) :
    codecCheck dir (.buffer b) off n = none ↔
      (dir = .write ∧ bufferReadOnly b = true) ∨ bufferSize b < off + n := by
  by_cases readOnly : dir = .write ∧ bufferReadOnly b = true
  · simp [codecCheck, readOnly]
  · simp [codecCheck, readOnly]

/-- The accesses the check refuses, on the BUF field's number (R52, R85). -/
theorem codecCheck_none_iff (dir : Direction) (sel : BufSel) (off n : Nat) :
    codecCheck dir sel off n = none ↔
      sel.code.toNat = 6 ∨ sel.code.toNat = 7
        ∨ (dir = .write ∧ (sel.code.toNat = 4 ∨ sel.code.toNat = 5))
        ∨ sizeByNumber sel.code.toNat < off + n := by
  cases sel with
  | reserved6 | reserved7 => simp [BufSel.code]
  | buffer b =>
    have size : sizeByNumber (BufSel.buffer b).code.toNat = bufferSize b := by cases b <;> rfl
    rw [codecCheck_buffer_none_iff, size]
    cases b <;> simp [bufferReadOnly, BufSel.code, Buffer.code]

/-- The codec check refuses the command: it ends in invalid-argument although its word decodes. -/
def CheckRefuses : Instr → Prop
  | .rd8 sel off => codecCheck .read sel off Width.one.count = none
  | .rd16 sel off => codecCheck .read sel off Width.two.count = none
  | .rd32 sel off => codecCheck .read sel off Width.four.count = none
  | .wr8 sel off => codecCheck .write sel off Width.one.count = none
  | .wr16 sel off => codecCheck .write sel off Width.two.count = none
  | .wr32 sel off => codecCheck .write sel off Width.four.count = none
  | .encname | .buildreq | .parseresp => False

theorem malformedWord_encode_iff {i : Instr} (hwf : WellFormed i) :
    MalformedWord (encode i) ↔ CheckRefuses i := by
  rw [malformedWord_iff]
  cases i with
  | rd8 sel off | rd16 sel off | rd32 sel off | wr8 sel off | wr16 sel off | wr32 sel off =>
    have h : off < 1024 := of_decide_eq_true hwf
    simp [encode, fieldRsv18_assemble _ _ h, fieldRsv7_assemble, fieldOp_assemble,
      fieldBuf_assemble, fieldOffset_assemble _ _ h, MalformedFields, CheckRefuses,
      codecCheck_none_iff, widthByNumber, Width.count]
  | encname | buildreq | parseresp =>
    simp [encode, fieldRsv18_assemble, fieldRsv7_assemble, fieldOp_assemble,
      fieldBuf_assemble, fieldOffset_assemble, MalformedFields, CheckRefuses]

theorem codecRead_refused {n : Width} {sel : BufSel} {off : Nat}
    (h : codecCheck .read sel off n.count = none) (s : State) :
    codecRead n sel off s = s.complete .invalidArgument .none := by
  rw [codecRead, h, State.raiseInvalidArgument_eq_complete]

theorem codecWrite_refused {n : Width} {sel : BufSel} {off : Nat}
    (h : codecCheck .write sel off n.count = none) (s : State) :
    codecWrite n sel off s = s.complete .invalidArgument .none := by
  rw [codecWrite, h, State.raiseInvalidArgument_eq_complete]

theorem execResult_refused {i : Instr} (h : CheckRefuses i) (s : State) :
    execResult i s = s.complete .invalidArgument .none := by
  cases i with
  | rd8 sel off | rd16 sel off | rd32 sel off => exact codecRead_refused h s
  | wr8 sel off | wr16 sel off | wr32 sel off => exact codecWrite_refused h s
  | encname | buildreq | parseresp => exact h.elim

/-! ### How each command ends (R134, R135, R138) -/

theorem legal_none : LegalErrGate 0 0 := .inl ⟨rfl, rfl⟩

theorem legal_invalidArgument : LegalErrGate 2 0 := .inr (.inl ⟨rfl, rfl⟩)

theorem legal_of_failsAtGate {s : State} {gate : BitVec 4} (h : FailsAtGate s gate) :
    LegalErrGate 4 gate := by
  rcases h with ⟨-, rfl⟩ | ⟨-, -, rfl⟩ | ⟨-, -, -, rfl⟩ <;> exact .inr (.inr ⟨rfl, by decide⟩)

theorem codecRead_ends (n : Width) (sel : BufSel) (off : Nat) (s : State) :
    ∃ err, EndedWith (codecRead n sel off s) err 0 ∧ LegalErrGate err 0 ∧
      (err = 2 ↔ codecCheck .read sel off n.count = none) := by
  rcases codecRead_cases n sel off s with ⟨b, passes, e⟩ | ⟨refused, e⟩
  · exact ⟨0, e ▸ State.complete_ends _ _ _, legal_none, by simp [passes]⟩
  · exact ⟨2, e ▸ State.complete_ends _ _ _, legal_invalidArgument, by simp [refused]⟩

theorem codecWrite_ends (n : Width) (sel : BufSel) (off : Nat) (s : State) :
    ∃ err, EndedWith (codecWrite n sel off s) err 0 ∧ LegalErrGate err 0 ∧
      (err = 2 ↔ codecCheck .write sel off n.count = none) := by
  rcases codecWrite_cases n sel off s with ⟨b, passes, e⟩ | ⟨refused, e⟩
  · exact ⟨0, e ▸ State.complete_ends _ _ _, legal_none, by simp [passes]⟩
  · exact ⟨2, e ▸ State.complete_ends _ _ _, legal_invalidArgument, by simp [refused]⟩

/-- Every command ends with a legal pair of ERR and GATE, with a gate only if it is PARSERESP, and with
invalid-argument exactly when the check refuses it. -/
theorem execResult_ends (i : Instr) (s : State) :
    ∃ err gate, EndedWith (execResult i s) err gate ∧ LegalErrGate err gate ∧
      (gate ≠ 0 → i = .parseresp) ∧ (err = 2 ↔ CheckRefuses i) := by
  cases i with
  | rd8 sel off | rd16 sel off | rd32 sel off =>
    obtain ⟨err, ends, legal, refused⟩ := codecRead_ends _ sel off s
    exact ⟨err, 0, ends, legal, fun ne => absurd rfl ne, refused⟩
  | wr8 sel off | wr16 sel off | wr32 sel off =>
    obtain ⟨err, ends, legal, refused⟩ := codecWrite_ends _ sel off s
    exact ⟨err, 0, ends, legal, fun ne => absurd rfl ne, refused⟩
  | encname | buildreq =>
    exact ⟨0, 0, State.complete_ends _ _ _, legal_none, fun ne => absurd rfl ne,
      iff_of_false (by decide) id⟩
  | parseresp =>
    rcases parserespResult_ends s with ⟨-, ends⟩ | ⟨gate, fails, ends, -⟩
    · exact ⟨0, 0, ends, legal_none, fun ne => absurd rfl ne, iff_of_false (by decide) id⟩
    · exact ⟨4, gate, ends, legal_of_failsAtGate fails, fun _ => rfl, iff_of_false (by decide) id⟩

/-! ### The obligation -/

theorem runResult_ok {s : State} {i : Instr} (h : decode s.engine.cw = .ok i) :
    runResult s = execResult i s := by
  simp only [runResult, h]

theorem runResult_error {s : State} {e : DecodeError} (h : decode s.engine.cw = .error e) :
    runResult s = s.complete .invalidArgument .none := by
  simp only [runResult, h]

/-- A busy engine's step ends in invalid-argument exactly on R76's words, and then it is a completion alone. -/
theorem runResult_malformed (s : State) :
    ((runResult s).status.err = 2 ↔ MalformedWord s.engine.cw) ∧
      (MalformedWord s.engine.cw → runResult s = s.complete .invalidArgument .none) := by
  cases hd : decode s.engine.cw with
  | error e =>
    rw [runResult_error hd]
    exact ⟨iff_of_true rfl (malformedWord_of_decode_error hd), fun _ => rfl⟩
  | ok i =>
    obtain ⟨-, -, hwf, -⟩ := decode_ok hd
    obtain ⟨err, gate, ⟨-, -, he, -⟩, -, -, refused⟩ := execResult_ends i s
    rw [runResult_ok hd, ← encode_of_decode hd, malformedWord_encode_iff hwf, he]
    exact ⟨refused, fun h => execResult_refused h s⟩

/-- Settles O5: an idle block takes every write of CMD, and `runResult_malformed` says how the engine ends. -/
theorem malformedWordsFailClosed : Obligations.MalformedWordsFailClosed := by
  refine ⟨fun s w rest hr hi hs => ?_, fun s hb => ⟨_, engineTurn_busy hb, runResult_malformed s⟩⟩
  have cmd_offset : Reg.ofOffset 0x00 = some .cmd := rfl
  exact ⟨_, step_write_idle hs hr rfl cmd_offset rfl hi, rfl, rfl⟩

end Sys2Proof.Proofs
end

section
/-! What a successful PARSERESP commits (R122, R128, R130), and what a failed one leaves (R123): the result
registers, STATS and ENTRY read back from the bytes of RX. -/

namespace Sys2Proof.Proofs

open Sys2Proof Sys2Proof.Machine

/-! ### Two halves of a word -/

theorem extractLsb'_append_above {m n : Nat} (a : BitVec m) (b : BitVec n) (k len : Nat) :
    (a ++ b).extractLsb' (n + k) len = a.extractLsb' k len := by
  rw [BitVec.extractLsb'_append_eq_of_le (Nat.le_add_right n k), Nat.add_sub_cancel_left]

/-- The low half of a 32-bit read is the 16-bit read two bytes on. -/
theorem read32_low_half (s : State) (b : Buffer) (i : Nat) :
    (s.read32 b i).extractLsb' 0 16 = s.read16 b (i + 2) := by
  have halves : s.read32 b i = s.read16 b i ++ s.read16 b (i + 2) := BitVec.append_assoc
  rw [halves, BitVec.extractLsb'_append_eq_right]

/-! ### A record byte by byte (R58, R122) -/

theorem bytesOf32_getD_read {s : State} {b : Buffer} {i : Nat} {v : Word}
    (h : ∀ m, m < 4 → s.byte b (i + m) = (bytesOf32 v).getD m 0) : s.read32 b i = v := by
  rw [State.read32, show s.byte b i = _ from h 0 (by decide), h 1 (by decide), h 2 (by decide),
    h 3 (by decide)]
  exact bytesOf32_append v

/-- A record's first 16 bytes are the entry's 15-byte name and suffix as RX has them. -/
theorem record_name_byte (s : State) (c : Nat) {m : Nat} (hm : m < 16) :
    (entryAt s c).record.getD m 0 = s.byte .rx (c + m) := by
  rw [Entry.record, List.getD_append _ _ _ _ (by simpa [entryAt] using hm)]
  by_cases name : m < 15
  · rw [List.getD_append _ _ _ _ (by simpa [entryAt] using name)]
    exact State.bytes_getD s .rx c 15 name
  · obtain rfl : m = 15 := by omega
    rw [List.getD_append_right _ _ _ _ (by simp [entryAt])]
    simp [entryAt]

/-- A record's last 4 bytes are the entry's decoded flag word. -/
theorem record_flags_byte (s : State) (c m : Nat) :
    (entryAt s c).record.getD (16 + m) 0 = (bytesOf32 (efw (s.read16 .rx (c + 16)))).getD m 0 := by
  rw [Entry.record, List.getD_append_right _ _ _ _ (by simp [entryAt])]
  simp [entryAt]

/-! ### The state after a successful parse -/

section
variable {s : State} (ok : ParseSucceeds s)
include ok

theorem success_count_le : (s.byte .rx 54).toNat ≤ 26 := by
  obtain ⟨hl, -, hn⟩ := ok
  omega

theorem success_res : (parserespResult s).res = (parsedOf s).results := by
  rw [parserespResult_success ok, State.complete_res, State.commit_eq]

theorem success_resv : (parserespResult s).status.resv = true := by
  rw [parserespResult_success ok, State.complete_status_resv, State.commit_eq]

theorem success_stats_byte {j : Nat} (hj : j < 46) :
    (parserespResult s).byte .stats j = s.byte .rx (55 + 18 * (s.byte .rx 54).toNat + j) := by
  have length : (parsedOf s).st.length = 46 := State.bytes_length _ _ _ _
  rw [parserespResult_success ok, State.byte_complete, State.byte_commit_stats _ _ (by omega)]
  exact State.bytes_getD _ _ _ _ hj

theorem success_stats_unused {i : Nat} (hi : 46 ≤ i) : (parserespResult s).byte .stats i = 0 := by
  have length : (parsedOf s).st.length = 46 := State.bytes_length _ _ _ _
  rw [parserespResult_success ok, State.byte_complete, State.byte_commit_stats_outside _ _ (by omega)]
  rfl

theorem success_record_byte {k m : Nat} (hk : k < (s.byte .rx 54).toNat) (hm : m < 20) :
    (parserespResult s).byte .entry (20 * k + m)
      = (entryAt s (55 + 18 * k)).record.getD m 0 := by
  rw [parserespResult_success ok, State.byte_complete]
  exact State.byte_commit_record _ _ (entriesFrom_names s 55 _) (entriesFrom_getElem? s 55 hk) hm

theorem success_entry_unused {i : Nat} (hi : 20 * (s.byte .rx 54).toNat ≤ i) :
    (parserespResult s).byte .entry i = 0 := by
  have length : (parsedOf s).entries.length = (s.byte .rx 54).toNat := entriesFrom_length _ _ _
  rw [parserespResult_success ok, State.byte_complete,
    State.byte_commit_entry_outside _ _ (entriesFrom_names s 55 _) (by omega)]
  rfl

theorem success_record_name {k m : Nat} (hk : k < (s.byte .rx 54).toNat) (hm : m < 16) :
    (parserespResult s).byte .entry (20 * k + m) = s.byte .rx (55 + 18 * k + m) := by
  rw [success_record_byte ok hk (by omega), record_name_byte s _ hm]

theorem success_record_flags {k : Nat} (hk : k < (s.byte .rx 54).toNat) :
    (parserespResult s).read32 .entry (20 * k + 16) = efw (s.read16 .rx (55 + 18 * k + 16)) := by
  refine bytesOf32_getD_read fun m hm => ?_
  rw [Nat.add_assoc, success_record_byte ok hk (by omega), record_flags_byte]

theorem success_stats_read32 : (parserespResult s).read32 .stats 0
    = s.read32 .rx (55 + 18 * (s.byte .rx 54).toNat) := by
  simp only [State.read32]
  rw [success_stats_byte ok (by decide), success_stats_byte ok (by decide),
    success_stats_byte ok (by decide), success_stats_byte ok (by decide)]
  rfl

theorem success_stats_read16 : (parserespResult s).read16 .stats 4
    = s.read16 .rx (55 + 18 * (s.byte .rx 54).toNat + 4) := by
  simp only [State.read16]
  rw [success_stats_byte ok (by decide), success_stats_byte ok (by decide)]

theorem success_typeClass :
    (parserespResult s).res.typeClass = (0x0021#16 ++ s.read16 .rx 46 : BitVec 32) := by
  rw [success_res ok]
  obtain ⟨-, ht, -⟩ := ok
  rw [← ht]
  rfl

end

/-- The hardware address of a parse is the first 6 bytes of its statistics block (R42). -/
theorem parsedOf_hwaddr (s : State) :
    (parsedOf s).results.hwaddrHi = s.read32 .rx (55 + 18 * (s.byte .rx 54).toNat) ∧
      (parsedOf s).results.hwaddrLo
        = (0x0000#16 ++ s.read16 .rx (55 + 18 * (s.byte .rx 54).toNat + 4) : BitVec 32) := by
  have stByte : ∀ k, k < 46 →
      (parsedOf s).stByte k = s.byte .rx (55 + 18 * (s.byte .rx 54).toNat + k) :=
    fun k hk => State.bytes_getD s .rx _ 46 hk
  simp only [Parsed.results, stByte 0 (by decide), stByte 1 (by decide), stByte 2 (by decide),
    stByte 3 (by decide), stByte 4 (by decide), stByte 5 (by decide)]
  exact ⟨rfl, BitVec.append_assoc⟩

/-! ### A failed parse (R123) -/

/-- A parse that fails leaves the cleared result state and a cursor of at most 55 (log 9). -/
theorem parserespResult_failure {s : State} (h : ¬ ParseSucceeds s) : ∃ c g, c ≤ 55 ∧
    parserespResult s = (s.clearResult.setCursor c 0).complete .protocolViolation g := by
  rcases parserespResult_cases s with ⟨-, e⟩ | ⟨-, -, e⟩ | ⟨-, -, -, e⟩ | ⟨hl, ht, hn, -⟩
  · exact ⟨0, _, by decide, e⟩
  · exact ⟨54, _, by decide, e⟩
  · exact ⟨55, _, by decide, e⟩
  · exact absurd ⟨hl, ht, hn⟩ h

/-! ### The buffers PARSERESP never writes (R66) -/

theorem parserespResult_keepsInputBuffers (s : State) : KeepsInputBuffers s (parserespResult s) := by
  intro b i h1 h2
  have cleared := State.byte_clearResult s h1 h2 i
  by_cases ok : ParseSucceeds s
  · rw [parserespResult_success ok]
    exact (State.byte_commit_other _ _ h1 h2 i).trans cleared
  · obtain ⟨c, g, -, e⟩ := parserespResult_failure ok
    rw [e]
    exact cleared

/-! ### The entry loop -/

theorem entriesFrom_eq_ofFn (s : State) (c k : Nat) :
    entriesFrom s c k = List.ofFn fun j : Fin k => entryAt s (c + 18 * j.val) := by
  apply List.ext_getElem?
  intro j
  by_cases hj : j < k
  · rw [entriesFrom_getElem? s c hj]
    simp [hj]
  · rw [List.getElem?_eq_none (by simpa using hj), List.getElem?_eq_none (by simpa using hj)]

/-! ### The obligations -/

/-- Settles O26: the `success_` lemmas, one per part of the result state. -/
theorem parserespCommitsTheResponse : Obligations.ParserespCommitsTheResponse := by
  refine ⟨rfl, fun s ok => ⟨parserespResult s, exec_eq .parseresp s, ?_⟩⟩
  obtain ⟨operands, latches, outer⟩ := parserespResult_keeps s
  obtain ⟨hi, lo⟩ := parsedOf_hwaddr s
  have res := success_res ok
  rw [← res] at hi lo
  refine ⟨parserespResult_success_ends ok, success_resv ok, by rw [res]; rfl, by rw [res]; rfl,
    by rw [res]; rfl, by rw [res]; rfl, success_typeClass ok, by rw [res]; rfl, by rw [res]; rfl,
    fun j => success_stats_byte ok, hi, by rw [hi, success_stats_read32 ok], lo,
    by rw [lo, success_stats_read16 ok], fun k hk => ⟨fun j => success_record_name ok hk,
    success_record_flags ok hk⟩, fun i => success_entry_unused ok, fun i => success_stats_unused ok,
    parserespResult_keepsInputBuffers s, operands, latches, outer⟩

/-- Settles O27: of the two ways a PARSERESP ends, only the failing one is left. -/
theorem parserespFailureClears : Obligations.ParserespFailureClears := by
  intro s fails
  rcases parserespResult_ends s with ⟨ok, -⟩ | ⟨gate, at_gate, ends, cleared⟩
  · exact absurd ok fails
  · obtain ⟨operands, latches, outer⟩ := parserespResult_keeps s
    exact ⟨_, gate, exec_eq .parseresp s, at_gate, ends, cleared,
      parserespResult_keepsInputBuffers s, operands, latches, outer⟩

/-- Settles O30: a length of at most 576 leaves room for 26 entries (R9), so the loop takes them all
(`takeEntries_fits`), and every end of a PARSERESP has a pair that R135 lists. -/
theorem gatesSixAndEightUnreachable : Obligations.GatesSixAndEightUnreachable := by
  refine ⟨fun s ok => ⟨success_count_le ok, ?_, _, exec_eq .parseresp s, ?_⟩,
    fun s => ⟨_, exec_eq .parseresp s, ?_⟩⟩
  · have count := success_count_le ok
    obtain ⟨hl, -, hn⟩ := ok
    rw [takeEntries_fits s 55 (by omega), entriesFrom_eq_ofFn]
    congr 1 <;> omega
  · rw [execResult, parserespResult_success ok, State.complete_engine_c, State.commit_eq]
    rfl
  · obtain ⟨err, gate, ⟨-, -, he, hg⟩, legal, -⟩ := execResult_ends .parseresp s
    rw [he, hg]
    rcases legal with ⟨rfl, rfl⟩ | ⟨rfl, rfl⟩ | ⟨rfl, rfl | rfl | rfl⟩ <;> decide

end Sys2Proof.Proofs
end

section
/-! One step as one of six effects on the block (R20, R24, R28, R44, R148), and a completion as one of four:
what every later proof about a step goes through. -/

namespace Sys2Proof.Proofs

open Sys2Proof Sys2Proof.Machine

/-! ### The effects of a step -/

/-- What a step does to the block. `quiet` is every turn that changes the model's own fields alone: reads,
ignored writes, a WAIT, and the engine's turn when it is IDLE. -/
inductive StepEffect (s : State) : State → Prop
  | quiet (rest : List Turn) (reply : Option Word) (draws : Nat) :
      StepEffect s { s with schedule := rest, reply := reply, draws := draws }
  | operand (rest : List Turn) (data : Word) (rxlen txid : Half) (out : s.inReset = false) :
      StepEffect s { s with
        schedule := rest, reply := none, data := data, rxlen := rxlen, txid := txid }
  | accepted (rest : List Turn) (w : Word) (out : s.inReset = false) (accepts : AcceptsNext s) :
      StepEffect s (State.accept { s with schedule := rest, reply := none } w)
  | dropped (rest : List Turn) (out : s.inReset = false) (drops : DropsNext s) :
      StepEffect s (State.dropWrite { s with schedule := rest, reply := none })
  | completed (completes : CompletesNext s) : StepEffect s (runResult s.popTurn)
  | reset (on : Bool) (rest : List Turn) (next : s.schedule = .resetLine on :: rest) :
      StepEffect s (s.popTurn.driveReset on)

theorem idle_of_busy_eq_false {s : State} (h : s.busy = false) : s.engine.state = .idle := by
  rw [← EngineState.not_busy_iff, Ne, ← State.busy_iff, h]
  decide

theorem offset_of_cmd {off : Nat} (h : Reg.ofOffset off = some .cmd) : off = 0x00 := by
  unfold Reg.ofOffset at h
  split at h <;> simp_all

theorem hostWrite_effect {s : State} {off : Nat} {v : Word} {rest : List Turn}
    (hs : s.schedule = .access ⟨.write v, 32, off⟩ :: rest) (out : s.inReset = false) :
    StepEffect s (hostWrite off v s.popTurn) := by
  rcases hostWrite_cases off v s.popTurn with ⟨r, hr, hw, hb, e⟩ | ⟨r, hr, hw, hb, e⟩ | ⟨-, e⟩ <;>
    rw [e]
  · exact .dropped _ out ⟨v, off, rest, hs, Reg.ofOffset_writable hr hw, (State.busy_iff _).1 hb⟩
  · cases r with
    | cmd =>
      obtain rfl := offset_of_cmd hr
      exact .accepted _ v out ⟨v, rest, hs, idle_of_busy_eq_false hb⟩
    | data => exact .operand _ v s.rxlen s.txid out
    | rxlen => exact .operand _ s.data (v.setWidth 16) s.txid out
    | txid => exact .operand _ s.data s.rxlen (v.setWidth 16) out
    | _ => cases hw
  · exact .quiet _ _ _

theorem accessResult_effect {s : State} {a : HostAccess} {rest : List Turn}
    (hs : s.schedule = .access a :: rest) (out : s.inReset = false) (hl : a.legal = true) :
    StepEffect s (accessResult a s.popTurn) := by
  obtain ⟨kind, bits, off⟩ := a
  obtain ⟨rfl, -, -⟩ := (HostAccess.legal_iff _).1 hl
  cases kind with
  | read =>
    obtain ⟨v, n, e⟩ := hostRead_eq off s.popTurn
    rw [accessResult, e]
    exact .quiet _ _ _
  | write v => exact hostWrite_effect hs out

theorem step_effect {s t : State} (h : step s = .next t) : StepEffect s t := by
  rcases step_cases h with ⟨-, -, rfl⟩ | ⟨next, busy, rfl⟩ | ⟨a, rest, hs, out, hl, rfl⟩ |
    ⟨on, rest, hs, rfl⟩ | ⟨polls, rest, hs, -, rfl⟩
  · exact .quiet _ _ _
  · exact .completed ⟨next, busy⟩
  · exact accessResult_effect hs out hl
  · exact .reset on rest hs
  · exact .quiet _ _ _

/-- The reset line leaves the reset values, or nothing changes (R149, log 10). -/
theorem driveReset_cases (s : State) (on : Bool) :
    (∃ epoch, s.driveReset on = s.resetAt on epoch) ∨ s.driveReset on = s := by
  cases on with
  | true => exact .inl ⟨_, rfl⟩
  | false =>
    cases hr : s.inReset with
    | true => exact .inl ⟨_, driveReset_release hr⟩
    | false => exact .inr (driveReset_released hr)

/-! ### The effects of a completion (R44) -/

/-- What the engine's step on a latched word does: it refuses the word or the access, loads DATA, stores bytes
inside a buffer that is not read-only, or parses. -/
inductive CompletionEffect (s : State) : State → Prop
  | refused : CompletionEffect s (s.complete .invalidArgument .none)
  | loaded (v : Word) : CompletionEffect s (({ s with data := v } : State).complete .none .none)
  | stored (b : Buffer) (i : Nat) (vs : List Byte) (notStats : b ≠ .stats) (notEntry : b ≠ .entry)
      (fits : i + vs.length ≤ bufferSize b) :
      CompletionEffect s ((s.writeBytes b i vs).complete .none .none)
  | parsed (isParse : decode s.engine.cw = .ok .parseresp) : CompletionEffect s (parserespResult s)

theorem codecRead_effect (n : Width) (sel : BufSel) (off : Nat) (s : State) :
    CompletionEffect s (codecRead n sel off s) := by
  rcases codecRead_cases n sel off s with ⟨b, -, e⟩ | ⟨-, e⟩ <;> rw [e]
  · exact .loaded _
  · exact .refused

theorem codecWrite_effect (n : Width) (sel : BufSel) (off : Nat) (s : State) :
    CompletionEffect s (codecWrite n sel off s) := by
  rcases codecWrite_cases n sel off s with ⟨b, passes, e⟩ | ⟨-, e⟩ <;> rw [e]
  · obtain ⟨-, fits, writable⟩ := codecCheck_passes passes
    obtain ⟨notStats, notEntry⟩ := writable rfl
    exact .stored _ _ _ notStats notEntry (by rwa [valueBytes_length])
  · exact .refused

theorem runResult_effect (s : State) : CompletionEffect s (runResult s) := by
  cases hd : decode s.engine.cw with
  | error e =>
    rw [runResult_error hd]
    exact .refused
  | ok i =>
    rw [runResult_ok hd]
    cases i with
    | rd8 sel off | rd16 sel off | rd32 sel off => exact codecRead_effect _ sel off s
    | wr8 sel off | wr16 sel off | wr32 sel off => exact codecWrite_effect _ sel off s
    | encname => exact .stored _ _ (encBytes s) (by decide) (by decide) (by rw [encBytes_length]; decide)
    | buildreq => exact .stored _ _ _ (by decide) (by decide) (by rw [request_length]; decide)
    | parseresp => exact .parsed hd

/-! ### What every completion has in common -/

/-- Every completion ends with a legal pair, and a gate comes from a PARSERESP alone. -/
theorem runResult_ends (s : State) :
    ∃ err gate, EndedWith (runResult s) err gate ∧ LegalErrGate err gate ∧
      (gate ≠ 0 → decode s.engine.cw = .ok .parseresp) := by
  cases hd : decode s.engine.cw with
  | error e =>
    rw [runResult_error hd]
    exact ⟨2, 0, State.complete_ends _ _ _, legal_invalidArgument, fun ne => absurd rfl ne⟩
  | ok i =>
    obtain ⟨err, gate, ends, legal, from_parse, -⟩ := execResult_ends i s
    rw [runResult_ok hd]
    exact ⟨err, gate, ends, legal, fun ne => by rw [from_parse ne]⟩

theorem runResult_keepsLatches (s : State) : KeepsLatches s (runResult s) := by
  cases hd : decode s.engine.cw with
  | error e => exact runResult_error hd ▸ s.complete_keepsLatches _ _
  | ok i => exact runResult_ok hd ▸ (execResult_keeps i s).1

/-- The host's length and transaction id outlast every command. -/
theorem CompletionEffect.keeps_rxlen_txid {s t : State} (h : CompletionEffect s t) :
    t.rxlen = s.rxlen ∧ t.txid = s.txid := by
  cases h with
  | refused | loaded | stored => exact ⟨rfl, rfl⟩
  | parsed =>
    obtain ⟨operands, -, -⟩ := parserespResult_keeps s
    exact ⟨operands.rxlen, operands.txid⟩

/-- No command but PARSERESP writes the result state (R43). -/
theorem CompletionEffect.keepsResult_or_parsed {s t : State} (h : CompletionEffect s t) :
    KeepsResult s t ∨ (decode s.engine.cw = .ok .parseresp ∧ t = parserespResult s) := by
  cases h with
  | refused => exact .inl (s.complete_keepsResult _ _)
  | loaded => exact .inl ⟨rfl, fun _ => rfl, fun _ => rfl, rfl⟩
  | stored b i vs notStats notEntry =>
    exact .inl ((s.writeBytes_keepsResult i vs notStats notEntry).trans
      (State.complete_keepsResult _ _ _))
  | parsed isParse => exact .inr ⟨isParse, rfl⟩

end Sys2Proof.Proofs
end

section
/-! The invariants of a run (R22 to R31, R43, R52, R149, log 11): each is kept by every effect of a step, and
holds right after reset. -/

namespace Sys2Proof.Proofs

open Sys2Proof Sys2Proof.Machine

/-! ### The buffers' canonical form (R52, log 11) -/

theorem parserespResult_wf {s : State} (h : s.bufs.wf = true) : (parserespResult s).bufs.wf = true := by
  have cleared := State.wf_clearResult h
  by_cases ok : ParseSucceeds s
  · have count := success_count_le ok
    have block : 0 + (parsedOf s).st.length ≤ bufferSize .stats := by
      simp [parsedOf, bufferSize, Config.statsLen]
    rw [parserespResult_success ok, State.complete_bufs, State.commit]
    exact writeRecords_wf (State.wf_writeBytes (parsedOf s).st cleared block)
      (entriesFrom_names s 55 _) (by simpa [parsedOf] using count)
  · obtain ⟨c, g, -, e⟩ := parserespResult_failure ok
    exact e ▸ cleared

theorem CompletionEffect.keeps_wf {s t : State} (e : CompletionEffect s t) (h : s.bufs.wf = true) :
    t.bufs.wf = true := by
  cases e with
  | refused | loaded => exact h
  | stored b i vs _ _ fits => exact State.wf_writeBytes vs h fits
  | parsed => exact parserespResult_wf h

/-- Settles O53: a step writes a buffer only by completing a command, whose stores stay inside the buffer, or
by the reset line, which leaves empty lists. -/
theorem buffersStayCanonical : Obligations.BuffersStayCanonical := by
  intro s t h hstep
  cases step_effect hstep with
  | quiet | operand | accepted | dropped => exact h
  | completed => exact (runResult_effect s.popTurn).keeps_wf h
  | reset on =>
    rcases driveReset_cases s.popTurn on with ⟨_, e⟩ | e
    · rw [e]
      exact State.reset_bufs_wf
    · rw [e]
      exact h

/-- Settles O54: right after reset no buffer lists a byte. -/
theorem buffersCanonicalAtReset : Obligations.BuffersCanonicalAtReset :=
  State.reset_bufs_wf

/-! ### STATUS and the engine (R24, R27, R44, R135) -/

/-- PARSERESP leaves the cursor inside RX and the index inside ENTRY (log 9); no other command moves them. -/
theorem CompletionEffect.cursor_bounds {s t : State} (e : CompletionEffect s t)
    (hc : s.engine.c ≤ 576) (hi : s.engine.i ≤ 26) : t.engine.c ≤ 576 ∧ t.engine.i ≤ 26 := by
  cases e with
  | refused | loaded | stored => exact ⟨hc, hi⟩
  | parsed =>
    by_cases ok : ParseSucceeds s
    · have count := success_count_le ok
      obtain ⟨hl, -, -⟩ := id ok
      rw [parserespResult_success ok, State.commit_eq]
      exact ⟨hl, count⟩
    · obtain ⟨c, g, hc55, e⟩ := parserespResult_failure ok
      rw [e, State.complete_engine_c, State.complete_engine_i, State.setCursor_engine_c,
        State.setCursor_engine_i]
      omega

/-- A protocol violation is a failed parse, which holds no result (R123). -/
theorem CompletionEffect.violation_clears {s t : State} (e : CompletionEffect s t)
    (h : t.status.err = 4) : t.status.resv = false := by
  cases e with
  | refused | loaded | stored => simp [ErrorKind.code] at h
  | parsed =>
    rcases parserespResult_ends s with ⟨-, -, -, err, -⟩ | ⟨_, -, -, cleared⟩
    · exact absurd (err.symm.trans h) (by decide)
    · exact cleared.resv

theorem statusInv_completed {s : State} (hc : s.engine.c ≤ 576) (hi : s.engine.i ≤ 26) :
    StatusInv (runResult s) := by
  have effect := runResult_effect s
  obtain ⟨err, gate, ⟨idle, done, he, hg⟩, legal, -⟩ := runResult_ends s
  obtain ⟨cursor, index⟩ := effect.cursor_bounds hc hi
  exact
    { errGate := by rwa [he, hg]
      busyClears := fun busy => by simp [idle] at busy
      beforeFirst := fun _ notDone => by simp [done] at notDone
      violationClears := effect.violation_clears
      cursor := cursor
      index := index }

/-- The values of R149 are legal; the cursor and the index there are 0 (log 5). -/
theorem statusInv_resetAt (s : State) (asserted : Bool) (epoch : Nat) :
    StatusInv (s.resetAt asserted epoch) where
  errGate := legal_none
  busyClears := fun busy => by cases busy
  beforeFirst := fun _ _ => ⟨rfl, rfl, rfl⟩
  violationClears := fun _ => rfl
  cursor := Nat.zero_le _
  index := Nat.zero_le _

/-- Settles O55: an acceptance clears ERR, GATE and DONE, a completion sets them to a legal end, a dropped
write moves OVR of a busy block alone, and the reset line leaves the reset values. -/
theorem statusStaysLegal : Obligations.StatusStaysLegal := by
  intro s t h hstep
  cases step_effect hstep with
  | quiet | operand => exact { h with }
  | accepted =>
    exact { h with
      errGate := legal_none
      busyClears := fun _ => ⟨rfl, rfl⟩
      beforeFirst := fun idle => by cases idle
      violationClears := fun err => absurd err (by decide : (0 : BitVec 4) ≠ 4) }
  | dropped rest out drops =>
    obtain ⟨_, _, _, -, -, busy⟩ := drops
    exact { h with
      beforeFirst := fun idle => absurd (busy.symm.trans idle) (by decide) }
  | completed => exact statusInv_completed h.cursor h.index
  | reset on =>
    rcases driveReset_cases s.popTurn on with ⟨_, e⟩ | e <;> rw [e]
    · exact statusInv_resetAt _ _ _
    · exact { h with }

/-- Settles O56: State.reset is a state left by a reset. -/
theorem statusLegalAtReset : Obligations.StatusLegalAtReset :=
  statusInv_resetAt State.reset false 0

/-! ### The result state (R29, R43, R57, R58, R158) -/

/-- The result invariant speaks of the result state alone. -/
theorem resultInv_of_keepsResult {s t : State} (h : ResultInv s) (keeps : KeepsResult s t) :
    ResultInv t := by
  obtain ⟨res, stats, entry, resv⟩ := keeps
  have stats32 : t.read32 .stats 0 = s.read32 .stats 0 := State.read32_congr fun k _ _ => stats k
  have stats16 : t.read16 .stats 4 = s.read16 .stats 4 := State.read16_congr fun k _ _ => stats k
  have entry32 : ∀ i, t.read32 .entry i = s.read32 .entry i :=
    fun i => State.read32_congr fun k _ _ => entry k
  have entry16 : ∀ i, t.read16 .entry i = s.read16 .entry i :=
    fun i => State.read16_congr fun k _ _ => entry k
  have count : t.heldCount = s.heldCount := by rw [State.heldCount, res, State.heldCount]
  constructor
  · intro held
    obtain ⟨type, hflags, hflagsHigh, rdlenHigh, le, hi, lo, flags, unused⟩ := h.held (resv ▸ held)
    constructor <;> simp only [res, stats32, stats16, entry32, entry16, count, entry] <;> assumption
  · intro none
    obtain ⟨h1, h2, h3, h4, h5, h6, h7, h8, h9, hstats, hentry, hresv⟩ := h.none (resv ▸ none)
    constructor <;> simp only [res, stats, entry, resv] <;> assumption

theorem resultInv_of_cleared {t : State} (h : ResultCleared t) : ResultInv t :=
  ⟨fun held => absurd (held.symm.trans h.resv) (by decide), fun _ => h⟩

/-- The count of RES_RDLEN_N and the 0 above it (R41). -/
theorem rdlenN_fields (n : Byte) (rdl : Half) :
    (0x00#8 ++ n ++ rdl : BitVec 32).extractLsb' 16 8 = n ∧
      (0x00#8 ++ n ++ rdl : BitVec 32).extractLsb' 24 8 = 0 := by
  constructor
  · exact (extractLsb'_append_above (0x00#8 ++ n) rdl 0 8).trans (BitVec.extractLsb'_append_eq_right)
  · exact (extractLsb'_append_above (0x00#8 ++ n) rdl 8 8).trans (BitVec.extractLsb'_append_eq_left)

theorem success_heldCount {s : State} (ok : ParseSucceeds s) :
    (parserespResult s).heldCount = (s.byte .rx 54).toNat := by
  rw [State.heldCount, success_res ok]
  exact congrArg BitVec.toNat (rdlenN_fields _ _).1

/-- A record's flag word stands in its own low half (R58, R109). -/
theorem success_record_flags_low {s : State} (ok : ParseSucceeds s) {k : Nat}
    (hk : k < (s.byte .rx 54).toNat) :
    (parserespResult s).read16 .entry (20 * k + 18) = s.read16 .rx (55 + 18 * k + 16) := by
  rw [← (efw_fields (s.read16 .rx (55 + 18 * k + 16))).1, ← success_record_flags ok hk,
    read32_low_half]

/-- A successful parse leaves a result whose parts fit each other. -/
theorem success_decoded {s : State} (ok : ParseSucceeds s) : ResultDecoded (parserespResult s) := by
  obtain ⟨hwaddrHi, hwaddrLo⟩ := parsedOf_hwaddr s
  have count := success_heldCount ok
  have res := success_res ok
  constructor
  case type => rw [success_typeClass ok, BitVec.extractLsb'_append_eq_left]
  case hflags =>
    rw [res]
    exact congrArg hfw (BitVec.extractLsb'_append_eq_right).symm
  case hflagsHigh =>
    obtain ⟨-, -, -, -, -, -, -, -, -, high⟩ := hfw_fields (s.read16 .rx 2)
    rw [res]
    exact high
  case rdlenHigh =>
    rw [res]
    exact (rdlenN_fields _ _).2
  case count => exact count ▸ success_count_le ok
  case hwaddrHi => rw [res, hwaddrHi, success_stats_read32 ok]
  case hwaddrLo => rw [res, hwaddrLo, success_stats_read16 ok]
  case flags =>
    intro k hk
    rw [count] at hk
    rw [success_record_flags ok hk, success_record_flags_low ok hk]
  case unused => exact fun i hi => success_entry_unused ok (count ▸ hi)

theorem parserespResult_resultInv (s : State) : ResultInv (parserespResult s) := by
  rcases parserespResult_ends s with ⟨ok, -⟩ | ⟨_, -, -, cleared⟩
  · exact ⟨fun _ => success_decoded ok,
      fun none => absurd (none.symm.trans (success_resv ok)) (by decide)⟩
  · exact resultInv_of_cleared cleared

/-! ### The obligations on the result state -/

/-- Every effect but a parse and the reset line keeps the result state (R43). -/
theorem StepEffect.keepsResult {s t : State} (h : StepEffect s t) :
    KeepsResult s t
      ∨ (CompletesNext s ∧ decode s.engine.cw = .ok .parseresp ∧ t = parserespResult s.popTurn)
      ∨ (ResetNext s ∧ ResultCleared t) := by
  cases h with
  | quiet | operand | accepted | dropped => exact .inl ⟨rfl, fun _ => rfl, fun _ => rfl, rfl⟩
  | completed completes =>
    have popped : KeepsResult s s.popTurn := ⟨rfl, fun _ => rfl, fun _ => rfl, rfl⟩
    exact (runResult_effect s.popTurn).keepsResult_or_parsed.imp popped.trans
      fun ⟨isParse, e⟩ => .inl ⟨completes, isParse, e⟩
  | reset on rest next =>
    rcases driveReset_cases s.popTurn on with ⟨_, e⟩ | e <;> rw [e]
    · exact .inr (.inr ⟨⟨on, rest, next⟩, (resetAt_resetHeld _ _ _).result⟩)
    · exact .inl ⟨rfl, fun _ => rfl, fun _ => rfl, rfl⟩

/-- Settles O31: `StepEffect.keepsResult` without its two exceptions. -/
theorem onlyParserespWritesTheResult : Obligations.OnlyParserespWritesTheResult := by
  intro s t hstep notParse notReset
  rcases (step_effect hstep).keepsResult with keeps | ⟨completes, isParse, -⟩ | ⟨reset, -⟩
  · exact keeps
  · exact absurd ⟨completes, isParse⟩ notParse
  · exact absurd reset notReset

/-- Settles O57: a step keeps the result state, or commits a parse, or clears it. -/
theorem resultStateStaysConsistent : Obligations.ResultStateStaysConsistent := by
  intro s t h hstep
  rcases (step_effect hstep).keepsResult with keeps | ⟨-, -, rfl⟩ | ⟨-, cleared⟩
  · exact resultInv_of_keepsResult h keeps
  · exact parserespResult_resultInv _
  · exact resultInv_of_cleared cleared

/-- Settles O58: State.reset holds no result. -/
theorem resultConsistentAtReset : Obligations.ResultConsistentAtReset :=
  resultInv_of_cleared (resetAt_resetHeld State.reset false 0).result

/-! ### The reset line (R148, R149) -/

/-- Settles O59: in reset the host's accesses fault and the engine is idle, so only turns that leave the
block alone and the reset line itself are left. -/
theorem resetValuesAreHeld : Obligations.ResetValuesAreHeld := by
  refine ⟨fun asserted => absurd asserted (by decide), fun s t h hstep asserted => ?_⟩
  cases step_effect hstep with
  | quiet => exact { h asserted with result := { (h asserted).result with } }
  | operand rest data rxlen txid out => exact absurd (out.symm.trans asserted) (by decide)
  | accepted rest w out => exact absurd (out.symm.trans asserted) (by decide)
  | dropped rest out => exact absurd (out.symm.trans asserted) (by decide)
  | completed completes =>
    obtain ⟨-, busy⟩ := completes
    rw [(runResult_keepsOuter s.popTurn).inReset] at asserted
    exact absurd (busy.symm.trans (h asserted).idle) (by decide)
  | reset on =>
    rcases driveReset_cases s.popTurn on with ⟨_, e⟩ | e <;> rw [e] at asserted ⊢
    · exact resetAt_resetHeld _ _ _
    · exact { h asserted with result := { (h asserted).result with } }

end Sys2Proof.Proofs
end

section
/-! Which step does what (R22, R26 to R28, R44, R49, R148): the engine's turn, when a step stops, and which
steps change BUSY, DONE and OVR. -/

namespace Sys2Proof.Proofs

open Sys2Proof Sys2Proof.Machine

/-! ### The engine's turn (R44, log 1) -/

theorem step_engineNext {s : State} (h : EngineNext s) : step s = engineTurn s.popTurn := by
  rcases h with hs | ⟨rest, hs⟩
  · have popped : s.popTurn = s := by
      rw [State.popTurn, hs, List.tail_nil, ← hs]
    rw [popped]
    unfold step
    rw [hs]
  · unfold step State.popTurn
    rw [hs]
    rfl

theorem engineTurn_next (s : State) : ∃ t, engineTurn s = .next t := by
  cases hs : s.engine.state with
  | idle => exact ⟨_, engineTurn_idle hs⟩
  | busy => exact ⟨_, engineTurn_busy hs⟩

theorem step_completes {s : State} (h : CompletesNext s) : step s = .next (runResult s.popTurn) := by
  obtain ⟨next, busy⟩ := h
  rw [step_engineNext next]
  exact engineTurn_busy busy

/-- Settles O34: with the engine's turn next the step is `engineTurn`, which runs the latched word. -/
theorem stepRunsTheLatchedCommand : Obligations.StepRunsTheLatchedCommand := by
  intro s next
  refine ⟨fun busy i hd => ?_, fun busy e hd => ?_, fun idle => ?_⟩
  · rw [step_completes ⟨next, busy⟩, runResult_ok (s := s.popTurn) hd, exec_eq]
  · rw [step_completes ⟨next, busy⟩, runResult_error (s := s.popTurn) hd]
    rfl
  · rw [step_engineNext next]
    exact engineTurn_idle idle

/-- Settles O33: every completion ends alike (`runResult_ends`) and keeps what is not the command's. -/
theorem everyAcceptedCommandCompletes : Obligations.EveryAcceptedCommandCompletes := by
  intro s busy
  obtain ⟨err, gate, ⟨idle, done, he, hg⟩, legal, fromParse⟩ := runResult_ends s
  obtain ⟨rxlen, txid⟩ := (runResult_effect s).keeps_rxlen_txid
  exact ⟨_, engineTurn_busy busy, idle, done, by rwa [he, hg], by rwa [hg], rxlen, txid,
    runResult_keepsLatches s, runResult_keepsOuter s⟩

/-! ### When a step stops (R22, R134, R148) -/

theorem step_access_next_iff {s : State} {a : HostAccess} {rest : List Turn}
    (hs : s.schedule = .access a :: rest) :
    (∃ t, step s = .next t) ↔
      s.inReset = false ∧ a.bits = 32 ∧ a.offset % 4 = 0 ∧ a.offset ≤ 0x7C := by
  rw [← HostAccess.legal_iff, step_access hs]
  constructor
  · rintro ⟨t, h⟩
    obtain ⟨out, legal, -⟩ := hostAccess_next h
    exact ⟨out, legal⟩
  · rintro ⟨out, legal⟩
    exact ⟨_, hostAccess_taken out legal⟩

theorem step_wait_next_iff {s : State} {polls : Nat} {rest : List Turn}
    (hs : s.schedule = .wait polls :: rest) : (∃ t, step s = .next t) ↔ s.inReset = false := by
  rw [step_wait hs]
  constructor
  · rintro ⟨t, h⟩
    exact (waitTurn_next h).1
  · exact fun out => ⟨_, waitTurn_taken out⟩

/-- Settles O35: the engine's turn and the reset line always answer; an access and a WAIT are the two `iff`
lemmas above. -/
theorem stepStopsOnlyOnBadAccess : Obligations.StepStopsOnlyOnBadAccess := by
  intro s
  rcases hs : s.schedule with _ | ⟨a | _ | on | polls, rest⟩
  · simpa [step_engineNext (.inl hs)] using engineTurn_next _
  · simpa using step_access_next_iff hs
  · simpa [step_engineNext (.inr ⟨rest, hs⟩)] using engineTurn_next _
  · simp [step_resetLine hs]
  · simpa using step_wait_next_iff hs

/-! ### Acceptance and dropped writes (R24, R49) -/

theorem writable_of_offset {off : Nat}
    (h : off = 0x00 ∨ off = 0x08 ∨ off = 0x0C ∨ off = 0x10) :
    ∃ r, Reg.ofOffset off = some r ∧ r.writable = true := by
  rcases h with rfl | rfl | rfl | rfl <;> exact ⟨_, rfl, rfl⟩

theorem step_accepts {s t : State} (h : step s = .next t) (accepts : AcceptsNext s) :
    ∃ w rest, t = State.accept { s with schedule := rest, reply := none } w := by
  obtain ⟨w, rest, hs, idle⟩ := accepts
  obtain ⟨out, -⟩ := (step_access_next_iff hs).1 ⟨t, h⟩
  have cmd_offset : Reg.ofOffset 0x00 = some .cmd := rfl
  rw [step_write_idle hs out rfl cmd_offset rfl idle, next_inj] at h
  exact ⟨w, rest, h.symm⟩

theorem step_drops {s t : State} (h : step s = .next t) (drops : DropsNext s) :
    ∃ rest, t = State.dropWrite { s with schedule := rest, reply := none } := by
  obtain ⟨w, off, rest, hs, offset, busy⟩ := drops
  obtain ⟨r, hoff, hw⟩ := writable_of_offset offset
  have taken := (step_access_next_iff hs).1 ⟨t, h⟩
  obtain ⟨out, legal⟩ := taken
  rw [step_write_busy hs out ((HostAccess.legal_iff _).2 legal) hoff hw busy, next_inj] at h
  exact ⟨rest, h.symm⟩

/-! ### OVR, BUSY and DONE (R26 to R28, R44, R49) -/

/-- Everything a step can do to OVR. -/
theorem StepEffect.ovr {s t : State} (h : StepEffect s t) :
    t.status.ovr = s.status.ovr ∨ (DropsNext s ∧ t.status.ovr = true) ∨
      (AcceptsNext s ∧ t.status.ovr = false) ∨ (ResetNext s ∧ t.status.ovr = false) := by
  cases h with
  | quiet | operand => exact .inl rfl
  | accepted _ _ _ accepts => exact .inr (.inr (.inl ⟨accepts, rfl⟩))
  | dropped _ _ drops => exact .inr (.inl ⟨drops, rfl⟩)
  | completed => exact .inl (runResult_keepsOuter s.popTurn).ovr
  | reset on rest next =>
    rcases driveReset_cases s.popTurn on with ⟨_, e⟩ | e <;> rw [e]
    · exact .inr (.inr (.inr ⟨⟨on, rest, next⟩, rfl⟩))
    · exact .inl rfl

/-- Everything a step can do to BUSY and DONE. -/
theorem StepEffect.busy_done {s t : State} (h : StepEffect s t) :
    (t.engine.state = s.engine.state ∧ t.status.done = s.status.done) ∨
      (AcceptsNext s ∧ t.engine.state = .busy ∧ t.status.done = false) ∨
      (CompletesNext s ∧ t.engine.state = .idle ∧ t.status.done = true) ∨
      (ResetNext s ∧ t.engine.state = .idle ∧ t.status.done = false) := by
  cases h with
  | quiet | operand | dropped => exact .inl ⟨rfl, rfl⟩
  | accepted _ _ _ accepts => exact .inr (.inl ⟨accepts, rfl, rfl⟩)
  | completed completes =>
    obtain ⟨_, _, ⟨idle, done, -, -⟩, -⟩ := runResult_ends s.popTurn
    exact .inr (.inr (.inl ⟨completes, idle, done⟩))
  | reset on rest next =>
    rcases driveReset_cases s.popTurn on with ⟨_, e⟩ | e <;> rw [e]
    · exact .inr (.inr (.inr ⟨⟨on, rest, next⟩, rfl, rfl⟩))
    · exact .inl ⟨rfl, rfl⟩

/-- Settles O48: only a dropped write, an acceptance and the reset line write OVR (`StepEffect.ovr`), each
always the same value. -/
theorem ovrRecordsDroppedWrites : Obligations.OvrRecordsDroppedWrites := by
  intro s t h
  refine ⟨fun drops => ?_, fun clear set => ?_, fun accepts => ?_, fun rest hs => ?_,
    fun set clear => ?_⟩
  · obtain ⟨rest, rfl⟩ := step_drops h drops
    rfl
  · rcases (step_effect h).ovr with same | ⟨drops, -⟩ | ⟨-, clear'⟩ | ⟨-, clear'⟩
    · exact absurd (set.symm.trans (same.trans clear)) (by decide)
    · exact drops
    · exact absurd (set.symm.trans clear') (by decide)
    · exact absurd (set.symm.trans clear') (by decide)
  · obtain ⟨w, rest, rfl⟩ := step_accepts h accepts
    rfl
  · rw [step_resetLine hs, next_inj] at h
    rw [← h]
    rfl
  · rcases (step_effect h).ovr with same | ⟨-, set'⟩ | ⟨accepts, -⟩ | ⟨reset, -⟩
    · exact absurd (clear.symm.trans (same.trans set)) (by decide)
    · exact absurd (clear.symm.trans set') (by decide)
    · exact .inl accepts
    · exact .inr reset

/-- Settles O49: only an acceptance, a completion and the reset line write BUSY and DONE
(`StepEffect.busy_done`), the first two to opposite values. -/
theorem busyAndDoneFollowTheCommand : Obligations.BusyAndDoneFollowTheCommand := by
  intro s t h
  refine ⟨fun accepts => ?_, fun completes => ?_, ?_⟩
  · obtain ⟨w, rest, rfl⟩ := step_accepts h accepts
    exact ⟨rfl, rfl⟩
  · obtain ⟨_, _, ⟨idle, done, -, -⟩, -⟩ := runResult_ends s.popTurn
    rw [step_completes completes, next_inj] at h
    exact h ▸ ⟨idle, done⟩
  · rcases (step_effect h).busy_done with ⟨state, done⟩ | ⟨accepts, state, done⟩ |
      ⟨completes, state, done⟩ | ⟨reset, state, done⟩ <;> simp_all

/-! ### A reset of a busy block (R149, R151, R152) -/

/-- The buffers that reset does not clear list nothing, so each byte is the free value of its epoch (log 3). -/
theorem resetAt_byte (s : State) (asserted : Bool) (epoch : Nat) {b : Buffer}
    (h : b = .rx ∨ b = .tx ∨ b = .label ∨ b = .enc) (i : Nat) :
    (s.resetAt asserted epoch).byte b i = Config.unknownByte epoch b.code.toNat i := by
  rcases h with rfl | rfl | rfl | rfl <;> rfl

/-- Settles O52: asserting the line leaves `State.resetAt true` in a new epoch, and releasing it
`State.resetAt false` in the same one. -/
theorem resetAbandonsTheCommand : Obligations.ResetAbandonsTheCommand := by
  intro s rest _ hs
  have values := resetAt_resetHeld { s with schedule := rest } false (s.epoch + 1)
  exact ⟨_, _, step_resetLine hs, resetAt_resetHeld _ _ _, step_resetLine rfl, values, rfl, rfl, rfl,
    fun b i hb => resetAt_byte { s with schedule := rest } false _ hb i⟩

end Sys2Proof.Proofs
end

section
/-! The host's register interface (R21, R23, R25, R32 to R42, R48, R49): the STATUS word, and what a read and a
write at each kind of offset answers in an idle and in a busy block. -/

namespace Sys2Proof.Proofs

open Sys2Proof Sys2Proof.Machine

/-! ### The STATUS word (R25) -/

theorem statusWord_flags (s : State) :
    s.statusWord.getLsbD 0 = decide (s.engine.state = .busy) ∧
      s.statusWord.getLsbD 1 = s.status.done ∧ s.statusWord.getLsbD 2 = s.status.ovr ∧
      s.statusWord.getLsbD 3 = s.status.resv := by
  refine ⟨s.statusWord_busy, ?_⟩
  unfold State.statusWord
  simp only [BitVec.getLsbD_append]
  simp

/-- Above the four flags stand a reserved nibble, ERR, GATE and the reserved half. -/
theorem statusWord_above_flags (s : State) (k len : Nat) :
    s.statusWord.extractLsb' (4 + k) len
      = (0#16 ++ s.status.gate ++ s.status.err ++ 0#4).extractLsb' k len := by
  rw [State.statusWord, show 4 + k = 1 + (1 + (1 + (1 + k))) by omega]
  exact (extractLsb'_append_above _ _ _ _).trans ((extractLsb'_append_above _ _ _ _).trans
    ((extractLsb'_append_above _ _ _ _).trans (extractLsb'_append_above _ _ _ _)))

theorem statusWord_fields (s : State) :
    s.statusWord.extractLsb' 4 4 = 0 ∧ s.statusWord.extractLsb' 8 4 = s.status.err ∧
      s.statusWord.extractLsb' 12 4 = s.status.gate ∧ s.statusWord.extractLsb' 16 16 = 0 := by
  have above_nibble : ∀ k len, s.statusWord.extractLsb' (4 + (4 + k)) len
      = (0#16 ++ s.status.gate ++ s.status.err).extractLsb' k len := fun k len =>
    (statusWord_above_flags s _ _).trans (extractLsb'_append_above _ _ _ _)
  have above_err : ∀ k len, s.statusWord.extractLsb' (4 + (4 + (4 + k))) len
      = (0#16 ++ s.status.gate).extractLsb' k len := fun k len =>
    (above_nibble _ _).trans (extractLsb'_append_above _ _ _ _)
  exact ⟨(statusWord_above_flags s 0 4).trans (BitVec.extractLsb'_append_eq_right),
    (above_nibble 0 4).trans (BitVec.extractLsb'_append_eq_right),
    (above_err 0 4).trans (BitVec.extractLsb'_append_eq_right),
    (above_err 4 16).trans (BitVec.extractLsb'_append_eq_left)⟩

/-! ### Reads and writes that change nothing of the block -/

theorem offset_of_status {off : Nat} (h : Reg.ofOffset off = some .status) : off = 0x04 := by
  unfold Reg.ofOffset at h
  split at h <;> simp_all

theorem ofOffset_reserved {off : Nat} (h : 0x38 ≤ off) : Reg.ofOffset off = none := by
  unfold Reg.ofOffset
  split
  case h_15 => rfl
  all_goals omega

section
variable {s : State} {off : Nat} {rest : List Turn}

theorem step_read_busy (hs : s.schedule = .access ⟨.read, 32, off⟩ :: rest) (hr : s.inReset = false)
    (hl : HostAccess.legal ⟨.read, 32, off⟩ = true) (hb : s.engine.state = .busy)
    (hoff : Reg.ofOffset off ≠ some .status) :
    step s = .next { s with
      schedule := rest, reply := some (Config.busyRead s.draws), draws := s.draws + 1 } := by
  have busy : State.busy { s with schedule := rest } = true := (State.busy_iff _).2 hb
  rw [step_access_legal hs hr hl, next_inj, accessResult]
  simp [hostRead, busy, hoff]

/-- STATUS reads exactly, idle or busy, and the read changes nothing. -/
theorem step_read_status (hs : s.schedule = .access ⟨.read, 32, 0x04⟩ :: rest)
    (hr : s.inReset = false) :
    step s = .next { s with schedule := rest, reply := some s.statusWord } := by
  have status_offset : Reg.ofOffset 0x04 = some .status := rfl
  rw [step_access_legal hs hr rfl, next_inj, accessResult]
  simp [hostRead, status_offset, State.offsetValue, State.regValue, State.statusWord, State.busy]

/-- A write is ignored, idle or busy, where no register can be written (R23, R48). -/
theorem step_write_ignored {v : Word} (hs : s.schedule = .access ⟨.write v, 32, off⟩ :: rest)
    (hr : s.inReset = false) (hl : HostAccess.legal ⟨.write v, 32, off⟩ = true)
    (hoff : ∀ r, Reg.ofOffset off = some r → r.writable = false) :
    step s = .next { s with schedule := rest, reply := none } := by
  rw [step_access_legal hs hr hl, next_inj, accessResult]
  unfold hostWrite
  cases h : Reg.ofOffset off with
  | none => rfl
  | some r => simp [hoff r h]

end

/-! ### The obligations -/

theorem legal_offset {off : Nat} (k : AccessKind) (h4 : off % 4 = 0) (hle : off ≤ 0x7C) :
    HostAccess.legal ⟨k, 32, off⟩ = true :=
  (HostAccess.legal_iff _).2 ⟨rfl, h4, hle⟩

theorem zero_append_eq_setWidth (v : Half) : (0#16 ++ v : BitVec 32) = v.setWidth 32 :=
  (BitVec.setWidth_eq_append (by decide)).symm

theorem setWidth_high_zero (v : Half) : (v.setWidth 32).extractLsb' 16 16 = 0 := by
  rw [← zero_append_eq_setWidth]
  exact BitVec.extractLsb'_append_eq_left

/-- Settles O41: no register stands at a reserved offset, so a read answers 0 or a free draw and a write is
ignored; the reserved bits are zeros of the STATUS word and of the zero extensions. -/
theorem reservedOffsetsAndBits : Obligations.ReservedOffsetsAndBits := by
  refine ⟨fun s off rest h4 low high hr => ?_, fun s => ?_⟩
  · have reserved := ofOffset_reserved low
    refine ⟨fun hs idle => ?_, fun hs busy => ?_, fun v hs => ?_⟩
    · rw [step_read_idle hs hr (legal_offset _ h4 high) idle, State.offsetValue, reserved]
    · exact step_read_busy hs hr (legal_offset _ h4 high) busy (by simp [reserved])
    · exact step_write_ignored hs hr (legal_offset _ h4 high) (by simp [reserved])
  · obtain ⟨low, -, -, high⟩ := statusWord_fields s
    exact ⟨low, high, setWidth_high_zero s.rxlen, setWidth_high_zero s.txid⟩

/-- Settles O43: the places are `statusWord_flags` and `statusWord_fields`, the read `step_read_status`. -/
theorem statusFieldsAndRead : Obligations.StatusFieldsAndRead := by
  refine ⟨fun s => ?_, rfl, fun s rest hr hs => step_read_status hs hr⟩
  obtain ⟨busy, done, ovr, resv⟩ := statusWord_flags s
  exact ⟨busy, done, ovr, resv, statusWord_fields s⟩

/-- Settles O44: the four offsets are the writable registers', and only STATUS is at 0x04. -/
theorem accessesWhileBusy : Obligations.AccessesWhileBusy := by
  intro s off rest hr busy
  refine ⟨fun v hs offset => ?_, fun hs h4 hle ne => ?_, fun hs => step_read_status hs hr⟩
  · obtain ⟨r, hoff, hw⟩ := writable_of_offset offset
    have legal := legal_offset (.write v) (off := off) (by omega) (by omega)
    exact step_write_busy hs hr legal hoff hw busy
  · refine step_read_busy hs hr (legal_offset _ h4 (by omega)) busy fun h => ?_
    exact ne (offset_of_status h)

/-- Settles O45: none of these offsets is a writable register's. -/
theorem readOnlyWritesAreIgnored : Obligations.ReadOnlyWritesAreIgnored := by
  intro s off v rest hr h4 offset hs
  refine step_write_ignored hs hr (legal_offset _ h4 (by omega)) fun r h => ?_
  by_contra hw
  have writable := Reg.ofOffset_writable h (by simpa using hw)
  omega

/-- Settles O46: each is the idle write or read of the register at its offset; the low half of a word is its
truncation, and 16 zeros above a half its extension. -/
theorem operandRegistersReadBack : Obligations.OperandRegistersReadBack := by
  intro s v rest hr idle
  have data_offset : Reg.ofOffset 0x08 = some .data := rfl
  have rxlen_offset : Reg.ofOffset 0x0C = some .rxlen := rfl
  have txid_offset : Reg.ofOffset 0x10 = some .txid := rfl
  refine ⟨fun hs => ?_, fun hs => ?_, fun hs => ?_, fun hs => ?_, fun hs => ?_, fun hs => ?_⟩
  · exact step_write_idle hs hr (legal_offset _ rfl (by decide)) data_offset rfl idle
  · exact step_write_idle hs hr (legal_offset _ rfl (by decide)) rxlen_offset rfl idle
  · exact step_write_idle hs hr (legal_offset _ rfl (by decide)) txid_offset rfl idle
  · exact step_read_idle hs hr rfl idle
  · rw [zero_append_eq_setWidth]
    exact step_read_idle hs hr rfl idle
  · rw [zero_append_eq_setWidth]
    exact step_read_idle hs hr rfl idle

/-- Settles O47: each offset is legal, and the value there is the register's that the map names. -/
theorem resultRegistersRead : Obligations.ResultRegistersRead := by
  intro s off v rest hr idle hs place
  have value : off % 4 = 0 ∧ off ≤ 0x7C ∧ s.offsetValue off = v := by
    rcases place with ⟨rfl, rfl⟩ | ⟨rfl, rfl⟩ | ⟨rfl, rfl⟩ | ⟨rfl, rfl⟩ | ⟨rfl, rfl⟩ | ⟨rfl, rfl⟩ |
      ⟨rfl, rfl⟩ | ⟨rfl, rfl⟩ | ⟨rfl, rfl⟩ <;> exact ⟨rfl, by decide, rfl⟩
  obtain ⟨h4, hle, hv⟩ := value
  rw [step_read_idle hs hr (legal_offset _ h4 hle) idle, hv]

end Sys2Proof.Proofs
end

section
/-! The codec (R52, R59 to R65, R85 to R92): the check, and what each read and each write leaves, once for the
three widths. -/

namespace Sys2Proof.Proofs

open Sys2Proof Sys2Proof.Machine

/-! ### The check (R64, R85) -/

theorem codecCheck_some_iff (dir : Direction) (sel : BufSel) (off n : Nat) (b : Buffer) :
    codecCheck dir sel off n = some b ↔
      sel = .buffer b ∧ off + n ≤ bufferSize b ∧ ¬ (dir = .write ∧ (b = .stats ∨ b = .entry)) := by
  constructor
  · intro passes
    obtain ⟨rfl, fits, writable⟩ := codecCheck_passes passes
    refine ⟨rfl, fits, ?_⟩
    rintro ⟨write, readOnly⟩
    obtain ⟨notStats, notEntry⟩ := writable write
    exact readOnly.elim notStats notEntry
  · rintro ⟨rfl, fits, writable⟩
    cases dir with
    | read => exact codecCheck_read fits
    | write =>
      exact codecCheck_write (fun e => writable ⟨rfl, .inl e⟩) (fun e => writable ⟨rfl, .inr e⟩) fits

/-- A reserved buffer and an access out of bounds are refused in both directions. -/
theorem codecCheck_none (dir : Direction) {sel : BufSel} {off n : Nat}
    (h : sel = .reserved6 ∨ sel = .reserved7 ∨ ∃ b, sel = .buffer b ∧ bufferSize b < off + n) :
    codecCheck dir sel off n = none := by
  rcases h with rfl | rfl | ⟨b, rfl, beyond⟩
  · rfl
  · rfl
  · exact codecCheck_out_of_bounds dir beyond

/-- A write to STATS or ENTRY is refused besides. -/
theorem codecCheck_write_none {sel : BufSel} {off n : Nat}
    (h : sel = .reserved6 ∨ sel = .reserved7 ∨ sel = .buffer .stats ∨ sel = .buffer .entry
      ∨ ∃ b, sel = .buffer b ∧ bufferSize b < off + n) :
    codecCheck .write sel off n = none := by
  rcases h with h | h | rfl | rfl | h
  · exact codecCheck_none _ (.inl h)
  · exact codecCheck_none _ (.inr (.inl h))
  · exact codecCheck_write_stats off n
  · exact codecCheck_write_entry off n
  · exact codecCheck_none _ (.inr (.inr h))

/-! ### Reads and writes (R86 to R91) -/

theorem codecRead_passes {n : Width} {b : Buffer} {off : Nat} (fits : off + n.count ≤ bufferSize b)
    (s : State) : codecRead n (.buffer b) off s
      = ({ s with data := s.readValue b off n } : State).complete .none .none := by
  rw [codecRead, codecCheck_read fits]
  rfl

section
variable {n : Width} {b : Buffer} {off : Nat} (notStats : b ≠ .stats) (notEntry : b ≠ .entry)
  (fits : off + n.count ≤ bufferSize b)
include notStats notEntry fits

theorem codecWrite_passes (s : State) : codecWrite n (.buffer b) off s
    = (s.writeBytes b off (valueBytes s.engine.d n)).complete .none .none := by
  rw [codecWrite, codecCheck_write notStats notEntry fits]
  rfl

theorem codecWrite_byte (s : State) {k : Nat} {x : Byte} (hk : k < n.count)
    (hx : (valueBytes s.engine.d n).getD k 0 = x) :
    (codecWrite n (.buffer b) off s).byte b (off + k) = x := by
  rw [codecWrite_passes notStats notEntry fits, State.byte_complete,
    State.byte_writeBytes_inside _ _ _ _ (by rwa [valueBytes_length]), hx]

theorem codecWrite_frame (s : State) :
    BytesKeptOutside s (codecWrite n (.buffer b) off s) b off n.count := by
  have frame := s.writeBytes_frame b off (valueBytes s.engine.d n)
  rw [valueBytes_length] at frame
  rw [codecWrite_passes notStats notEntry fits]
  exact frame

/-- A write changes the buffers and STATUS, and the engine is IDLE again. -/
theorem codecWrite_record (s : State) : codecWrite n (.buffer b) off s = { s with
    bufs := (codecWrite n (.buffer b) off s).bufs
    engine := { s.engine with state := .idle }
    status := { s.status with done := true, err := 0, gate := 0 } } := by
  rw [codecWrite_passes notStats notEntry fits]
  rfl

end

/-! ### The bytes of a value (R13, R74) -/

theorem valueBytes_one (v : Word) : valueBytes v .one = [v.extractLsb' 0 8] := by
  rw [valueBytes, bytesOf8, BitVec.setWidth_eq_extractLsb' (by decide)]

theorem valueBytes_two (v : Word) : valueBytes v .two = [v.extractLsb' 8 8, v.extractLsb' 0 8] := by
  rw [valueBytes, bytesOf16, BitVec.extractLsb'_setWidth_of_le (by decide),
    BitVec.extractLsb'_setWidth_of_le (by decide)]

theorem toNat_append_add {m n : Nat} (a : BitVec m) (b : BitVec n) :
    (a ++ b).toNat = a.toNat * 2 ^ n + b.toNat := by
  rw [BitVec.toNat_append, ← Nat.shiftLeft_add_eq_or_of_lt b.isLt, Nat.shiftLeft_eq]

theorem read16_toNat (s : State) (b : Buffer) (i : Nat) :
    (s.read16 b i).toNat = (s.byte b i).toNat * 256 + (s.byte b (i + 1)).toNat :=
  toNat_append_add _ _

theorem read32_toNat (s : State) (b : Buffer) (i : Nat) :
    (s.read32 b i).toNat = (s.read16 b i).toNat * 65536 + (s.read16 b (i + 2)).toNat := by
  have halves : s.read32 b i = s.read16 b i ++ s.read16 b (i + 2) := BitVec.append_assoc
  rw [halves]
  exact toNat_append_add _ _

theorem readValue_toNat (s : State) (b : Buffer) (i : Nat) :
    (s.readValue b i .one).toNat = (s.byte b i).toNat ∧
      (s.readValue b i .two).toNat = (s.read16 b i).toNat := by
  have byte_lt := (s.byte b i).isLt
  have half_lt := (s.read16 b i).isLt
  simp only [State.readValue, BitVec.toNat_setWidth]
  omega

/-- A value written and read at one width comes back modulo 256 to the width (R92 law 1). -/
theorem readValue_written (s : State) (b : Buffer) (off : Nat) (v : Word) (n : Width) :
    ((s.writeBytes b off (valueBytes v n)).readValue b off n).toNat = v.toNat % 256 ^ n.count := by
  have word_lt := v.isLt
  cases n with
  | one =>
    have byte := State.byte_writeBytes_inside s b off (valueBytes v .one) (k := 0) (by simp [Width.count])
    rw [Nat.add_zero, valueBytes_one] at byte
    rw [(readValue_toNat _ _ _).1, valueBytes_one, byte]
    simp [Width.count]
  | two =>
    rw [(readValue_toNat _ _ _).2, valueBytes, State.read16_writeBytes, BitVec.toNat_setWidth]
    rfl
  | four =>
    rw [State.readValue, valueBytes, State.read32_writeBytes]
    exact (Nat.mod_eq_of_lt word_lt).symm

/-! ### The obligations on one command -/

/-- Settles O12: the table by evaluation, the check by `codecCheck_some_iff`. -/
theorem bufferTableAsListed : Obligations.BufferTableAsListed :=
  ⟨by decide, by decide, codecCheck_some_iff⟩

/-- Settles O6: the read of width one. -/
theorem rd8LoadsOneByte : Obligations.Rd8LoadsOneByte :=
  fun sel off s => ⟨fun b hb fits => by rw [hb, exec_eq, execResult, codecRead_passes fits]; rfl,
    fun refused => by rw [exec_eq, execResult, codecRead_refused (codecCheck_none _ refused)]; rfl,
    fun _ => rfl⟩

/-- Settles O7: the read of width two. -/
theorem rd16LoadsTwoBytes : Obligations.Rd16LoadsTwoBytes :=
  fun sel off s => ⟨fun b hb fits => by rw [hb, exec_eq, execResult, codecRead_passes fits]; rfl,
    fun refused => by rw [exec_eq, execResult, codecRead_refused (codecCheck_none _ refused)]; rfl,
    fun _ => rfl⟩

/-- Settles O8: the read of width four. -/
theorem rd32LoadsFourBytes : Obligations.Rd32LoadsFourBytes :=
  fun sel off s => ⟨fun b hb fits => by rw [hb, exec_eq, execResult, codecRead_passes fits]; rfl,
    fun refused => by rw [exec_eq, execResult, codecRead_refused (codecCheck_none _ refused)]; rfl,
    fun _ => rfl⟩

/-- Settles O9: the write of width one. -/
theorem wr8StoresOneByte : Obligations.Wr8StoresOneByte := by
  refine fun sel off s => ⟨?_, fun refused => ?_, fun _ => rfl⟩
  · rintro b rfl notStats notEntry fits
    have byte := @codecWrite_byte .one b off notStats notEntry fits s
    rw [valueBytes_one] at byte
    exact ⟨_, exec_eq _ s, byte (k := 0) (by decide) rfl,
      codecWrite_frame notStats notEntry fits s, codecWrite_record notStats notEntry fits s⟩
  · rw [exec_eq, execResult, codecWrite_refused (codecCheck_write_none refused)]
    rfl

/-- Settles O10: the write of width two. -/
theorem wr16StoresTwoBytes : Obligations.Wr16StoresTwoBytes := by
  refine fun sel off s => ⟨?_, fun refused => ?_, fun _ => rfl⟩
  · rintro b rfl notStats notEntry fits
    have byte := @codecWrite_byte .two b off notStats notEntry fits s
    rw [valueBytes_two] at byte
    exact ⟨_, exec_eq _ s, byte (k := 0) (by decide) rfl, byte (k := 1) (by decide) rfl,
      codecWrite_frame notStats notEntry fits s, codecWrite_record notStats notEntry fits s⟩
  · rw [exec_eq, execResult, codecWrite_refused (codecCheck_write_none refused)]
    rfl

/-- Settles O11: the write of width four. -/
theorem wr32StoresFourBytes : Obligations.Wr32StoresFourBytes := by
  refine fun sel off s => ⟨?_, fun refused => ?_, fun _ => rfl⟩
  · rintro b rfl notStats notEntry fits
    have byte := @codecWrite_byte .four b off notStats notEntry fits s
    exact ⟨_, exec_eq _ s, byte (k := 0) (by decide) rfl, byte (k := 1) (by decide) rfl,
      byte (k := 2) (by decide) rfl, byte (k := 3) (by decide) rfl,
      codecWrite_frame notStats notEntry fits s, codecWrite_record notStats notEntry fits s⟩
  · rw [exec_eq, execResult, codecWrite_refused (codecCheck_write_none refused)]
    rfl

/-! ### The obligations on two commands (R61, R92) -/

theorem codecRead_data {n : Width} {b : Buffer} {off : Nat} (fits : off + n.count ≤ bufferSize b)
    (s : State) : (codecRead n (.buffer b) off s).data = s.readValue b off n := by
  rw [codecRead_passes fits, State.complete_data]

/-- R92 law 1: an acceptance between a write and a read of one width changes no byte. -/
theorem codecWrite_read {n : Width} {b : Buffer} {off : Nat} (notStats : b ≠ .stats)
    (notEntry : b ≠ .entry) (fits : off + n.count ≤ bufferSize b) (s : State) (w : Word) :
    (codecRead n (.buffer b) off ((codecWrite n (.buffer b) off s).accept w)).data.toNat
      = s.engine.d.toNat % 256 ^ n.count := by
  rw [codecRead_data fits, codecWrite_passes notStats notEntry fits, ← readValue_written s b off]
  exact congrArg BitVec.toNat (State.readValue_congr n fun k _ _ => by simp)

/-- Settles O13: `codecWrite_read` at the three widths. -/
theorem writeThenReadReturnsValue : Obligations.WriteThenReadReturnsValue := fun s _ _ notStats notEntry =>
  ⟨fun fits => ⟨_, _, exec_eq _ _, exec_eq _ _, codecWrite_read (n := .one) notStats notEntry fits s _⟩,
    fun fits => ⟨_, _, exec_eq _ _, exec_eq _ _, codecWrite_read (n := .two) notStats notEntry fits s _⟩,
    fun fits => ⟨_, _, exec_eq _ _, exec_eq _ _, codecWrite_read (n := .four) notStats notEntry fits s _⟩⟩

theorem rd8_toNat {b : Buffer} {off : Nat} (fits : off + 1 ≤ bufferSize b) (s : State) :
    (execResult (.rd8 (.buffer b) off) s).data.toNat = (s.byte b off).toNat := by
  rw [execResult, codecRead_data fits, (readValue_toNat s b off).1]

theorem rd16_toNat {b : Buffer} {off : Nat} (fits : off + 2 ≤ bufferSize b) (s : State) :
    (execResult (.rd16 (.buffer b) off) s).data.toNat = (s.read16 b off).toNat := by
  rw [execResult, codecRead_data fits, (readValue_toNat s b off).2]

theorem rd32_toNat {b : Buffer} {off : Nat} (fits : off + 4 ≤ bufferSize b) (s : State) :
    (execResult (.rd32 (.buffer b) off) s).data.toNat
      = (s.read16 b off).toNat * 65536 + (s.read16 b (off + 2)).toNat := by
  rw [execResult, codecRead_data fits, State.readValue, read32_toNat]

/-- A WR16 and then a WR8 three bytes on, with no acceptance between (log 21): the WR16's bytes, the byte
between, and the WR8's byte. -/
theorem wr16_wr8_bytes {b : Buffer} {off : Nat} (notStats : b ≠ .stats) (notEntry : b ≠ .entry)
    (fits : off + 4 ≤ bufferSize b) {s t u : State} (ht : t = codecWrite .two (.buffer b) off s)
    (hu : u = codecWrite .one (.buffer b) (off + 3) t) :
    u.byte b off = s.engine.d.extractLsb' 8 8 ∧ u.byte b (off + 1) = s.engine.d.extractLsb' 0 8 ∧
      u.byte b (off + 2) = s.byte b (off + 2) ∧ u.byte b (off + 3) = s.engine.d.extractLsb' 0 8 := by
  have fits2 : off + Width.two.count ≤ bufferSize b := Nat.le_trans (by simp [Width.count]) fits
  have latched : t.engine.d = s.engine.d := by
    rw [ht, codecWrite_passes notStats notEntry fits2]
    rfl
  have two := @codecWrite_byte .two b off notStats notEntry fits2 s
  have one := @codecWrite_byte .one b (off + 3) notStats notEntry fits t
  have frame2 := codecWrite_frame notStats notEntry fits2 s
  have frame1 := codecWrite_frame (n := .one) notStats notEntry fits t
  rw [valueBytes_two, ← ht] at two
  rw [valueBytes_one, latched, ← hu] at one
  rw [← ht] at frame2
  rw [← hu] at frame1
  refine ⟨?_, ?_, ?_, one (k := 0) (by decide) rfl⟩
  · rw [frame1 b off (by omega)]
    exact two (k := 0) (by decide) rfl
  · rw [frame1 b (off + 1) (by omega)]
    exact two (k := 1) (by decide) rfl
  · rw [frame1 b (off + 2) (by omega), frame2 b (off + 2) (by simp [Width.count])]

/-- Settles O14: every access comes down to the bytes it reads or wrote, most significant first. -/
theorem mixedWidthReadsSeeTheSameBytes : Obligations.MixedWidthReadsSeeTheSameBytes := by
  intro s b off
  refine ⟨fun fits => ?_, fun fits => ?_, fun fits notStats notEntry hd => ?_,
    fun fits notStats notEntry => ?_⟩
  · refine ⟨_, _, _, exec_eq _ _, exec_eq _ _, exec_eq _ _, ?_⟩
    rw [rd16_toNat fits, rd8_toNat (by omega), rd8_toNat (by omega), read16_toNat]
  · refine ⟨_, _, _, exec_eq _ _, exec_eq _ _, exec_eq _ _, ?_⟩
    rw [rd32_toNat fits, rd16_toNat (by omega), rd16_toNat (by omega)]
  · have byte := @codecWrite_byte .four b off notStats notEntry fits s
    rw [hd] at byte
    have b0 : (execResult (.wr32 (.buffer b) off) s).byte b off = 0x11 := byte (k := 0) (by decide) rfl
    have b1 : (execResult (.wr32 (.buffer b) off) s).byte b (off + 1) = 0x22 := byte (by decide) rfl
    have b2 : (execResult (.wr32 (.buffer b) off) s).byte b (off + 2) = 0x33 := byte (by decide) rfl
    have b3 : (execResult (.wr32 (.buffer b) off) s).byte b (off + 3) = 0x44 := byte (by decide) rfl
    refine ⟨_, _, _, _, exec_eq _ _, exec_eq _ _, ?_, exec_eq _ _, ?_, exec_eq _ _, ?_⟩
    · rw [rd16_data _ (by omega), State.read16, b0, b1]
      rfl
    · rw [rd16_data _ (by omega), State.read16, b2, b3]
      rfl
    · apply BitVec.eq_of_toNat_eq
      rw [rd8_toNat (by omega), b3]
      rfl
  · refine ⟨_, _, _, exec_eq _ _, exec_eq _ _, exec_eq _ _, ?_⟩
    obtain ⟨b0, b1, b2, b3⟩ := wr16_wr8_bytes notStats notEntry fits (s := s) rfl rfl
    rw [rd32_toNat fits, read16_toNat, read16_toNat, execResult, execResult, b0, b1, b2, b3]
    simp only [BitVec.extractLsb'_toNat, Nat.shiftRight_eq_div_pow]
    omega

end Sys2Proof.Proofs
end

section
/-! Runs of scheduled turns (R44, R80, R162, log 1, log 15): a WAIT at an idle and at a busy block, a command
line, a PUT line, and the bound on completion. -/

namespace Sys2Proof.Proofs

open Sys2Proof Sys2Proof.Machine

/-! ### Runs -/

theorem run_step {M : Host.Core} {s t : M.State} (h : M.step s = .next t) (k : Nat) :
    M.run (k + 1) s = M.run k t := by
  simp only [Host.Core.run, h]

theorem run_add {M : Host.Core} {s t : M.State} {k : Nat} (h : M.run k s = .next t) (m : Nat) :
    M.run (k + m) s = M.run m t := by
  induction k generalizing s with
  | zero =>
    injection h with h
    rw [Nat.zero_add, h]
  | succ k ih =>
    rw [Nat.add_right_comm]
    simp only [Host.Core.run] at h ⊢
    cases hs : M.step s with
    | next u =>
      rw [hs] at h
      exact ih h
    | fault | refused =>
      rw [hs] at h
      cases h

/-- `k` steps of this machine lead from `s` to `t`. -/
def RunsTo (k : Nat) (s t : State) : Prop := Host.Core.run core k s = .next t

theorem RunsTo.one {s t : State} (h : step s = .next t) : RunsTo 1 s t :=
  run_step (M := core) h 0

theorem RunsTo.cons {k : Nat} {s t u : State} (h : step s = .next t) (r : RunsTo k t u) :
    RunsTo (k + 1) s u :=
  (run_step (M := core) h k).trans r

theorem RunsTo.snoc {k : Nat} {s t u : State} (r : RunsTo k s t) (h : step t = .next u) :
    RunsTo (k + 1) s u :=
  (run_add (M := core) r 1).trans (RunsTo.one h)

/-- A state after host turns that left the block alone: the turns still to come, and the last reply. -/
abbrev withTurns (s : State) (rest : List Turn) (reply : Option Word) : State :=
  { s with schedule := rest, reply := reply }

/-! ### A WAIT (R80) -/

section
variable {s : State} {polls : Nat} {rest : List Turn} (hr : s.inReset = false)
include hr

theorem step_wait_idle (hs : s.schedule = .wait polls :: rest) (idle : s.engine.state = .idle) :
    step s = .next (withTurns s rest (some s.statusWord)) := by
  have notBusy : State.busy { s with schedule := rest } = false := busy_eq_false idle
  rw [step_wait hs, waitTurn_taken (s := { s with schedule := rest }) hr, next_inj, waitResult,
    notBusy]
  rfl

theorem step_wait_busy (hs : s.schedule = .wait polls :: rest) (busy : s.engine.state = .busy) :
    step s = .next (withTurns s (waitTurns polls ++ rest) (some s.statusWord)) := by
  have isBusy : State.busy { s with schedule := rest } = true := (State.busy_iff _).2 busy
  rw [step_wait hs, waitTurn_taken (s := { s with schedule := rest }) hr, next_inj, waitResult,
    isBusy]
  rfl

/-- From an idle block the turns of a WAIT end after one read, before it at most an idle engine's turn. -/
theorem runsTo_wait_idle (hs : s.schedule = waitTurns polls ++ rest)
    (idle : s.engine.state = .idle) :
    ∃ k : Nat, k ≤ 2 ∧ RunsTo k s (withTurns s rest (some s.statusWord)) := by
  cases polls with
  | zero =>
    have engine : step s = .next s.popTurn := by
      rw [step_engineNext (.inr ⟨_, hs⟩)]
      exact engineTurn_idle idle
    have popped : s.popTurn.schedule = .wait 0 :: rest := by
      rw [State.popTurn_schedule, hs]
      rfl
    exact ⟨2, by decide, .cons engine (.one (step_wait_idle (s := s.popTurn) hr popped idle))⟩
  | succ polls => exact ⟨1, by decide, .one (step_wait_idle hr hs idle)⟩

end

/-- From a busy block the reads of a WAIT come one by one, then the engine steps, and one read is left. -/
theorem runsTo_wait_completion {s : State} {polls : Nat} {rest : List Turn} (hr : s.inReset = false)
    (hs : s.schedule = waitTurns polls ++ rest) (busy : s.engine.state = .busy) :
    ∃ r, RunsTo (polls + 1) s (runResult (withTurns s (.wait 0 :: rest) r)) := by
  induction polls generalizing s with
  | zero =>
    have popped : s.popTurn = withTurns s (.wait 0 :: rest) s.reply := by
      rw [State.popTurn, hs]
      rfl
    exact ⟨s.reply, .one (popped ▸ step_completes ⟨.inr ⟨_, hs⟩, busy⟩)⟩
  | succ polls ih =>
    obtain ⟨r, run⟩ := ih (s := withTurns s (waitTurns polls ++ rest) (some s.statusWord)) hr rfl busy
    exact ⟨r, .cons (step_wait_busy hr hs busy) run⟩

/-- The whole WAIT from a busy block: the completion, and the read that finds it. -/
theorem runsTo_wait_busy {s : State} {polls : Nat} {rest : List Turn} (hr : s.inReset = false)
    (hs : s.schedule = waitTurns polls ++ rest) (busy : s.engine.state = .busy) :
    ∃ r u, runResult (withTurns s (.wait 0 :: rest) r) = u ∧
      RunsTo (polls + 2) s (withTurns u rest (some u.statusWord)) := by
  obtain ⟨r, run⟩ := runsTo_wait_completion hr hs busy
  obtain ⟨-, -, ⟨idle, -, -, -⟩, -⟩ := runResult_ends (withTurns s (.wait 0 :: rest) r)
  have keeps := runResult_keepsOuter (withTurns s (.wait 0 :: rest) r)
  exact ⟨r, _, rfl, run.snoc (step_wait_idle (keeps.inReset.trans hr) keeps.schedule idle)⟩

/-- Settles O38: one read for each busy read that is scheduled, and after the engine's turn the last one. -/
theorem waitReadsStatusUntilIdle : Obligations.WaitReadsStatusUntilIdle := by
  refine ⟨fun s polls rest hr hs => ⟨step_wait_idle hr hs, step_wait_busy hr hs⟩,
    fun s polls rest hr idle hs => runsTo_wait_idle hr hs idle, fun s polls rest hr busy hs => ?_⟩
  obtain ⟨r, u, rfl, run⟩ := runsTo_wait_busy hr hs busy
  obtain ⟨-, -, ⟨idle, done, -, -⟩, -⟩ := runResult_ends (withTurns s (.wait 0 :: rest) r)
  exact ⟨_, run, rfl, idle, done, rfl⟩

/-! ### A command line (R79, R80) -/

theorem runsTo_command {s : State} {polls : Nat} {i : Instr} {rest : List Turn} (hwf : WellFormed i)
    (hr : s.inReset = false) (idle : s.engine.state = .idle)
    (hs : s.schedule = commandTurns polls i ++ rest) :
    ∃ r u, execResult i (withTurns (s.accept (encode i)) (.wait 0 :: rest) r) = u ∧
      RunsTo (polls + 3) s (withTurns u rest (some u.statusWord)) := by
  have cmd_write : s.schedule
      = .access ⟨.write (encode i), 32, 0x00⟩ :: (waitTurns polls ++ rest) := hs
  have cmd_offset : Reg.ofOffset 0x00 = some .cmd := rfl
  have accepted : step s
      = .next (withTurns (s.accept (encode i)) (waitTurns polls ++ rest) none) :=
    step_write_idle cmd_write hr rfl cmd_offset rfl idle
  obtain ⟨r, u, hu, run⟩ := runsTo_wait_busy (polls := polls) (rest := rest)
    (s := withTurns (s.accept (encode i)) (waitTurns polls ++ rest) none) hr rfl rfl
  have ran : runResult (withTurns (s.accept (encode i)) (.wait 0 :: rest) r)
      = execResult i (withTurns (s.accept (encode i)) (.wait 0 :: rest) r) := by
    apply runResult_ok
    exact decode_encode hwf
  exact ⟨r, u, ran.symm.trans hu, .cons accepted run⟩

/-- Settles O39: an acceptance, and then a WAIT from a busy block whose completion runs the command. -/
theorem commandLineRunsItsCommand : Obligations.CommandLineRunsItsCommand := by
  intro s polls i rest hwf hr idle hs
  obtain ⟨r, u, ends, run⟩ := runsTo_command hwf hr idle hs
  exact ⟨r, u, by rw [exec_eq, ← ends], run⟩

/-! ### The bound on completion (R162) -/

/-- While BUSY an access leaves the engine and the turns to come alone. -/
theorem accessResult_busy {s : State} {a : HostAccess} (busy : s.engine.state = .busy) :
    (accessResult a s).engine = s.engine ∧ (accessResult a s).schedule = s.schedule := by
  unfold accessResult
  cases a.kind with
  | read =>
    obtain ⟨_, _, e⟩ := hostRead_eq a.offset s
    simp [e]
  | write v =>
    rcases hostWrite_cases a.offset v s with ⟨_, -, -, -, e⟩ | ⟨_, -, -, notBusy, -⟩ | ⟨-, e⟩
    · simp [e]
    · exact absurd (idle_of_busy_eq_false notBusy) (by simp [busy])
    · simp [e]

theorem runResult_busy_done (s : State) :
    (runResult s).busy = false ∧ (runResult s).status.done = true := by
  obtain ⟨-, -, ⟨idle, done, -, -⟩, -⟩ := runResult_ends s
  exact ⟨busy_eq_false idle, done⟩

/-- The bound, by induction on the turns scheduled: an access leaves a shorter schedule, and the engine's turn,
the end of the schedule and a WAIT each bring the completion. -/
theorem runsTo_completion {turns : List Turn} {s : State} (hs : s.schedule = turns)
    (busy : s.engine.state = .busy) (hr : s.inReset = false) (quiet : QuietSchedule s) :
    ∃ k t, k ≤ (turns.map turnSteps).sum + 1 ∧ RunsTo k s t ∧ t.busy = false
      ∧ t.status.done = true := by
  induction turns generalizing s with
  | nil => exact ⟨1, _, by simp, .one (step_completes ⟨.inl hs, busy⟩), runResult_busy_done _⟩
  | cons turn rest ih =>
    have turn_quiet := quiet turn (by simp [hs])
    have rest_quiet : ∀ t ∈ rest, t = .engine ∨ (∃ polls, t = .wait polls)
        ∨ ∃ a, t = .access a ∧ a.bits = 32 ∧ a.offset % 4 = 0 ∧ a.offset ≤ 0x7C :=
      fun t ht => quiet t (by simp [hs, ht])
    rw [List.map_cons, List.sum_cons]
    rcases turn_quiet with rfl | ⟨polls, rfl⟩ | ⟨a, rfl, legal⟩
    · exact ⟨1, _, by omega, .one (step_completes ⟨.inr ⟨rest, hs⟩, busy⟩), runResult_busy_done _⟩
    · obtain ⟨r, run⟩ := runsTo_wait_completion (polls := polls) (rest := rest)
        (s := withTurns s (waitTurns polls ++ rest) (some s.statusWord)) hr rfl busy
      refine ⟨polls + 2, _, ?_, .cons (step_wait_busy hr hs busy) run, runResult_busy_done _⟩
      simp only [turnSteps]
      omega
    · obtain ⟨engine, schedule⟩ := accessResult_busy (s := { s with schedule := rest }) (a := a) busy
      obtain ⟨inReset, -⟩ := accessResult_keeps_reset a { s with schedule := rest }
      have taken := step_access_legal hs hr ((HostAccess.legal_iff a).2 legal)
      obtain ⟨k, t, hk, run, done⟩ := ih schedule
        ((congrArg Engine.state engine).trans busy) (inReset.trans hr)
        (by rwa [QuietSchedule, schedule])
      exact ⟨k + 1, t, by simp only [turnSteps]; omega, .cons taken run, done⟩

/-- Settles O36: `runsTo_completion` for the state's own schedule. -/
theorem busyEngineCompletesInBoundedSteps : Obligations.BusyEngineCompletesInBoundedSteps :=
  fun _ busy hr quiet => runsTo_completion rfl busy hr quiet

/-! ### A PUT line (R80) -/

theorem bufferSize_le (b : Buffer) : bufferSize b ≤ 576 := by
  cases b <;> decide

/-- WR32 inside a writable buffer, from a block that latched `v`. -/
theorem wr32_outcome {b : Buffer} {off : Nat} (notStats : b ≠ .stats) (notEntry : b ≠ .entry)
    (fits : off + 4 ≤ bufferSize b) {s : State} {v : Word} (latched : s.engine.d = v) :
    EndedWith (execResult (.wr32 (.buffer b) off) s) 0 0 ∧
      (execResult (.wr32 (.buffer b) off) s).data = s.data ∧
      (execResult (.wr32 (.buffer b) off) s).read32 b off = v ∧
      BytesKeptOutside s (execResult (.wr32 (.buffer b) off) s) b off 4 := by
  have passes := codecWrite_passes (n := .four) notStats notEntry fits s
  refine ⟨?_, ?_, ?_, codecWrite_frame (n := .four) notStats notEntry fits s⟩ <;>
    rw [execResult, passes]
  · exact State.complete_ends _ _ _
  · rfl
  · rw [← latched]
    exact State.read32_writeBytes s b off _

/-- Settles O37: the write of DATA, and then the command line of a WR32 that latches it. -/
theorem putLineStoresTheWord : Obligations.PutLineStoresTheWord := by
  intro s polls b off v notStats notEntry fits idle hr hs
  have data_write : s.schedule
      = .access ⟨.write v, 32, 0x08⟩ :: commandTurns polls (.wr32 (.buffer b) off) := hs
  have data_offset : Reg.ofOffset 0x08 = some .data := rfl
  have written : step s = .next (withTurns { s with data := v }
      (commandTurns polls (.wr32 (.buffer b) off)) none) :=
    step_write_idle data_write hr (legal_offset _ rfl (by decide)) data_offset rfl idle
  have hwf : WellFormed (.wr32 (.buffer b) off) := by
    have size := bufferSize_le b
    exact decide_eq_true (show off < 1024 by omega)
  obtain ⟨r, u, rfl, run⟩ := runsTo_command (polls := polls) (rest := [])
    (s := withTurns { s with data := v } (commandTurns polls (.wr32 (.buffer b) off)) none)
    hwf hr idle (List.append_nil _).symm
  obtain ⟨ends, data, word, frame⟩ := wr32_outcome notStats notEntry fits
    (s := withTurns (State.accept (withTurns { s with data := v }
      (commandTurns polls (.wr32 (.buffer b) off)) none) (encode (.wr32 (.buffer b) off)))
      (.wait 0 :: []) r) rfl
  exact ⟨_, RunsTo.cons written run, rfl, { ends with }, data, word, frame⟩

end Sys2Proof.Proofs
end

section
/-! The frames of ENCNAME and BUILDREQ (R94, R97, R99): the bytes each stores, and that nothing else but STATUS
changes. -/

namespace Sys2Proof.Proofs

open Sys2Proof Sys2Proof.Machine

/-! ### A command that stores bytes outside the result state -/

theorem storing_frame (s : State) {b : Buffer} (i : Nat) (vs : List Byte) (notStats : b ≠ .stats)
    (notEntry : b ≠ .entry) {t : State} (ht : t = (s.writeBytes b i vs).complete .none .none) :
    BytesKeptOutside s t b i vs.length ∧ KeepsOperands s t ∧ KeepsResult s t ∧ KeepsLatches s t ∧
      KeepsCursor s t ∧ KeepsOuter s t := by
  subst ht
  exact ⟨s.writeBytes_frame b i vs,
    (s.writeBytes_keepsOperands b i vs).trans (State.complete_keepsOperands _ _ _),
    (s.writeBytes_keepsResult i vs notStats notEntry).trans (State.complete_keepsResult _ _ _),
    (s.writeBytes_keepsLatches b i vs).trans (State.complete_keepsLatches _ _ _),
    (s.writeBytes_keepsCursor b i vs).trans (State.complete_keepsCursor _ _ _),
    (s.writeBytes_keepsOuter b i vs).trans (State.complete_keepsOuter _ _ _)⟩

/-! ### The name's padding in a request (R101) -/

/-- From the second label byte on the wildcard label is 0x00, whose letters are both 'A'. -/
theorem buildreq_padding_letter (s : State) {i : Nat} (low : 15 ≤ i) (high : i < 45) :
    (execResult .buildreq s).byte .tx i = 0x41#8 := by
  have letters : ∀ k, k < 32 → 2 ≤ k → (execResult .buildreq s).byte .tx (13 + k) = 0x41#8 := by
    refine forall_letter_of_pairs fun j hj => ?_
    obtain ⟨hi, lo⟩ := buildreq_letters s hj
    cases j with
    | zero => exact ⟨fun h => by omega, fun h => by omega⟩
    | succ j =>
      have zero : wildcardLabel.getD (j + 1) 0 = 0x00#8 := by
        rw [wildcardLabel, List.getD_cons_succ, List.getD_replicate _ (by omega)]
      rw [hi, lo, zero]
      exact ⟨fun _ => rfl, fun _ => rfl⟩
  obtain ⟨k, rfl⟩ : ∃ k, i = 13 + k := ⟨i - 13, by omega⟩
  exact letters k (by omega) (by omega)

/-! ### The obligations -/

/-- Settles O16: the letters are `encname_letters`, and the 33 bytes stored are all of ENC. -/
theorem encnameEncodesTheLabel : Obligations.EncnameEncodesTheLabel := by
  refine ⟨rfl, fun s => ⟨_, exec_eq .encname s, State.complete_ends _ _ _, fun k hk => ?_,
    encname_terminator s, ?_⟩⟩
  · obtain ⟨hi, lo⟩ := encname_letters s hk
    exact ⟨by rw [hi, haHi_toNat], by rw [lo, haLo_toNat]⟩
  · rw [← encBytes_length s]
    exact storing_frame s 0 (encBytes s) (by decide) (by decide) (execResult_encname s)

/-- Settles O19: the fixed bytes by evaluation of the request, the padding by `buildreq_padding_letter`, and the
50 bytes stored are all of TX. -/
theorem buildreqWritesTheRequest : Obligations.BuildreqWritesTheRequest := by
  refine ⟨rfl, fun s => ⟨_, exec_eq .buildreq s, State.complete_ends _ _ _, ?_⟩⟩
  have byte : ∀ k v, k < 50 → (requestHeader s.engine.id ++ requestQuestion).getD k 0 = v →
      (execResult .buildreq s).byte .tx k = v := fun k v hk hv => (buildreq_byte s hk).trans hv
  have counts : ∀ i, 6 ≤ i → i < 12 → (execResult .buildreq s).byte .tx i = 0x00#8 := by
    intro i low high
    refine byte i _ (by omega) ?_
    interval_cases i <;> rfl
  exact ⟨byte 0 _ (by decide) rfl, byte 1 _ (by decide) rfl, byte 2 _ (by decide) rfl,
    byte 3 _ (by decide) rfl, byte 4 _ (by decide) rfl, byte 5 _ (by decide) rfl, counts,
    byte 12 _ (by decide) rfl, byte 13 _ (by decide) rfl, byte 14 _ (by decide) rfl,
    fun i low high => buildreq_padding_letter s low high, byte 45 _ (by decide) rfl,
    byte 46 _ (by decide) rfl, byte 47 _ (by decide) rfl, byte 48 _ (by decide) rfl,
    byte 49 _ (by decide) rfl,
    storing_frame s 0 (requestHeader s.engine.id ++ requestQuestion) (by decide) (by decide)
      (execResult_buildreq s)⟩

end Sys2Proof.Proofs
end

section
/-! A command issued twice (R66): the second run reads what the first one read, so it leaves what the first one
left. -/

namespace Sys2Proof.Proofs

open Sys2Proof Sys2Proof.Machine

/-- What R66 compares: the second run leaves STATUS, the registers, the bytes and the model's own fields. -/
structure Repeats (t u : State) : Prop where
  status : u.status = t.status
  res : u.res = t.res
  operands : KeepsOperands t u
  outer : KeepsOuter t u
  bytes : ∀ b i, u.byte b i = t.byte b i

theorem Repeats.of_eq {t u : State} (h : u = t) : Repeats t u := by
  subst h
  exact ⟨rfl, rfl, .refl _, .refl _, fun _ _ => rfl⟩

/-! ### Completions alone, loads and stores -/

theorem repeats_refused (s : State) (w : Word) (e : ErrorKind) (g : Gate) {t : State}
    (ht : t = (s.accept w).complete e g) : Repeats t ((t.accept w).complete e g) := by
  subst ht
  exact ⟨rfl, rfl, ⟨rfl, rfl, rfl⟩, ⟨rfl, rfl, rfl, rfl, rfl, rfl⟩, fun _ _ => rfl⟩

/-- A read loads the same value again: it changes no byte. -/
theorem repeats_codecRead (n : Width) (sel : BufSel) (off : Nat) (s : State) (w : Word) {t : State}
    (ht : t = codecRead n sel off (s.accept w)) : Repeats t (codecRead n sel off (t.accept w)) := by
  rcases codecRead_cases n sel off (s.accept w) with ⟨b, passes, e⟩ | ⟨refused, e⟩
  · obtain ⟨rfl, fits, -⟩ := codecCheck_passes passes
    rw [e] at ht
    have value : (t.accept w).readValue b off n = (s.accept w).readValue b off n :=
      State.readValue_congr n fun k _ _ => by rw [ht]; rfl
    rw [codecRead_passes fits, value, ht]
    exact ⟨rfl, rfl, ⟨rfl, rfl, rfl⟩, ⟨rfl, rfl, rfl, rfl, rfl, rfl⟩, fun _ _ => rfl⟩
  · rw [e] at ht
    rw [codecRead_refused refused]
    exact repeats_refused s w _ _ ht

/-- The same bytes stored again at the same place change nothing. -/
theorem repeats_stored (s : State) (w : Word) (b : Buffer) (i : Nat) (vs : List Byte) {t : State}
    (ht : t = ((s.accept w).writeBytes b i vs).complete .none .none) :
    Repeats t (((t.accept w).writeBytes b i vs).complete .none .none) := by
  have bytes : ∀ b' j, ((t.accept w).writeBytes b i vs).byte b' j = t.byte b' j := by
    intro b' j
    rw [ht, State.byte_writeBytes, State.byte_accept, State.byte_complete, State.byte_writeBytes]
    split <;> rfl
  refine ⟨?_, ?_, ?_, ?_, bytes⟩
  all_goals subst ht
  · rfl
  · rfl
  · exact ⟨rfl, rfl, rfl⟩
  · exact ⟨rfl, rfl, rfl, rfl, rfl, rfl⟩

/-- A write stores the same DATA again: it changes no operand register. -/
theorem repeats_codecWrite (n : Width) (sel : BufSel) (off : Nat) (s : State) (w : Word) {t : State}
    (ht : t = codecWrite n sel off (s.accept w)) : Repeats t (codecWrite n sel off (t.accept w)) := by
  rcases codecWrite_cases n sel off (s.accept w) with ⟨b, passes, e⟩ | ⟨refused, e⟩
  · obtain ⟨rfl, fits, writable⟩ := codecCheck_passes passes
    obtain ⟨notStats, notEntry⟩ := writable rfl
    rw [e] at ht
    have latched : (t.accept w).engine.d = (s.accept w).engine.d := by rw [ht]; rfl
    rw [codecWrite_passes notStats notEntry fits, latched]
    exact repeats_stored s w b off _ ht
  · rw [e] at ht
    rw [codecWrite_refused refused]
    exact repeats_refused s w _ _ ht

/-- ENCNAME reads LABEL, which it does not write. -/
theorem repeats_encname (s : State) (w : Word) {t : State} (ht : t = execResult .encname (s.accept w)) :
    Repeats t (execResult .encname (t.accept w)) := by
  rw [execResult_encname] at ht ⊢
  have label : ∀ k, (t.accept w).byte .label k = (s.accept w).byte .label k := fun k => by
    rw [ht]
    exact State.byte_writeBytes_outside (s.accept w) .enc 0 (encBytes (s.accept w)) (by simp)
  have name : encBytes (t.accept w) = encBytes (s.accept w) := by
    rw [encBytes, encBytes, State.bytes_congr fun k _ _ => label k]
  rw [name]
  exact repeats_stored s w .enc 0 _ ht

/-- BUILDREQ reads TXID, which no command writes. -/
theorem repeats_buildreq (s : State) (w : Word) {t : State}
    (ht : t = execResult .buildreq (s.accept w)) : Repeats t (execResult .buildreq (t.accept w)) := by
  rw [execResult_buildreq] at ht ⊢
  have latched : (t.accept w).engine.id = (s.accept w).engine.id := by rw [ht]; rfl
  rw [latched]
  exact repeats_stored s w .tx 0 _ ht

/-! ### PARSERESP: what it wrote is cleared, and what it left in the engine is not read -/

theorem takeEntries_setCursor (s : State) (c' i' k i c : Nat) :
    takeEntries (s.setCursor c' i') k i c = takeEntries s k i c := by
  induction k generalizing i c with
  | zero => rfl
  | succ k ih =>
    rw [takeEntries, takeEntries, ih]
    rfl

theorem parseResponse_setCursor (s : State) (c i L : Nat) :
    parseResponse (s.setCursor c i) L = parseResponse s L := by
  have body : ∀ p c', parseBody (s.setCursor c i) L p c' = parseBody s L p c' := fun p c' => by
    rw [parseBody, parseBody, takeEntries_setCursor]
    rfl
  rw [parseResponse, parseResponse]
  simp only [body]
  rfl

theorem finishParse_setCursor (s : State) (c i : Nat) (e : ParseEnd) :
    finishParse (s.setCursor c i) e = finishParse s e := by
  cases e <;> rfl

theorem writeRecords_clearResult (s : State) (k : Nat) (es : List Entry) :
    (writeRecords s k es).clearResult = s.clearResult := by
  induction es generalizing s k with
  | nil => rfl
  | cons e es ih =>
    rw [writeRecords, ih]
    rfl

/-- A commit writes nothing that `clear_result()` does not clear. -/
theorem commit_clearResult (s : State) (p : Parsed) : (s.commit p).clearResult = s.clearResult := by
  rw [State.commit, writeRecords_clearResult]
  rfl

theorem finishParse_accept_clearResult (s : State) (e : ParseEnd) (w : Word) :
    ∃ c i, ((finishParse s e).accept w).clearResult = (s.accept w).clearResult.setCursor c i := by
  cases e with
  | raised e g c i => exact ⟨c, i, rfl⟩
  | parsed p c i =>
    refine ⟨c, i, ?_⟩
    have cleared := commit_clearResult (s.setCursor c i) p
    exact congrArg (State.accept · w) cleared

/-- A second PARSERESP parses the same bytes with the same length from the same cleared state. -/
theorem parserespResult_repeat (s : State) (w : Word) :
    parserespResult ((parserespResult (s.accept w)).accept w) = parserespResult (s.accept w) := by
  obtain ⟨c, i, cleared⟩ := finishParse_accept_clearResult (s.accept w).clearResult
    (parseResponse (s.accept w).clearResult s.rxlen.toNat) w
  obtain ⟨operands, -, -⟩ := parserespResult_keeps (s.accept w)
  have again : ((parserespResult (s.accept w)).accept w).clearResult
      = (s.accept w).clearResult.setCursor c i := cleared
  have len : ((parserespResult (s.accept w)).accept w).engine.len = s.rxlen := operands.rxlen
  rw [parserespResult, again, len, parseResponse_setCursor, finishParse_setCursor]
  rfl

/-! ### The obligation -/

theorem runResult_repeats (s : State) (w : Word) {t : State} (ht : t = runResult (s.accept w)) :
    Repeats t (runResult (t.accept w)) := by
  cases hd : decode w with
  | error e =>
    rw [runResult_error (s := s.accept w) hd] at ht
    rw [runResult_error (s := t.accept w) hd]
    exact repeats_refused s w _ _ ht
  | ok i =>
    rw [runResult_ok (s := s.accept w) hd] at ht
    rw [runResult_ok (s := t.accept w) hd]
    cases i with
    | rd8 sel off | rd16 sel off | rd32 sel off => exact repeats_codecRead _ sel off s w ht
    | wr8 sel off | wr16 sel off | wr32 sel off => exact repeats_codecWrite _ sel off s w ht
    | encname => exact repeats_encname s w ht
    | buildreq => exact repeats_buildreq s w ht
    | parseresp =>
      subst ht
      exact .of_eq (parserespResult_repeat s w)

/-- Settles O32: every word's completion repeats (`runResult_repeats`). -/
theorem commandsAreIdempotent : Obligations.CommandsAreIdempotent := by
  intro s w
  have again := runResult_repeats s w rfl
  exact ⟨_, _, engineTurn_busy rfl, engineTurn_busy rfl, again.status, again.res, again.operands,
    again.outer, again.bytes⟩

end Sys2Proof.Proofs
end
